-- ==== Sys2Proof/Word.lean ====
section
/-! DEFINITION. The two word types of the machine: bytes of the instruction stream and 64-bit values (00_scope.md R6, R7). -/

namespace Sys2Proof

/-- One byte of the instruction stream; an opcode tag is one byte (00_scope.md R6 `OPCODE_BITS`). -/
abbrev Byte := BitVec 8

/-- A 64-bit pattern: every stack slot, register, immediate and output (00_scope.md R6 `VALUE`, R7). It is read as an
IEEE-754 binary64 only by the operations of Machine/FpAlu.lean. -/
abbrev Value := BitVec 64

end Sys2Proof
end

