-- ==== Sys2Proof/Config.lean ====
section
/-! DEFINITION. The parameters of the hardware (00_scope.md R6): the names of the 17 instructions, the shape of the opcode map,
the defaults, and the one free value, the NaN an arithmetic operation returns. -/

namespace Sys2Proof

/-- The 17 instructions by name, without their immediate: what an opcode tag selects (30_encoding.md R84, R86). -/
inductive Opcode where
  | halt | nop
  | pushM1 | push0 | push1 | push2 | pushConst
  | add | sub | mul | div | neg
  | loadR1 | loadR2 | storeR1 | storeR2
  | print
  deriving DecidableEq, Repr

/-- The parameter `opcodeMap`: the byte of each instruction (30_encoding.md R85). Plain data, so that State can carry it as
the launch configuration it is (10_state.md R35). -/
structure OpcodeMap where
  halt      : Byte
  nop       : Byte
  pushM1    : Byte
  push0     : Byte
  push1     : Byte
  push2     : Byte
  pushConst : Byte
  add       : Byte
  sub       : Byte
  mul       : Byte
  div       : Byte
  neg       : Byte
  loadR1    : Byte
  loadR2    : Byte
  storeR1   : Byte
  storeR2   : Byte
  print     : Byte
  deriving DecidableEq, Repr

/-- The four rounded operations of the FP ALU: the `op` of `nanOf(op, a, b)` (42_arithmetic.md R141, R143). -/
inductive AluOp where
  | add | sub | mul | div
  deriving DecidableEq, Repr

namespace Config

/-- `STACK_CAPACITY`, 256 slots (00_scope.md R6). -/
abbrev stackCapacity : Nat := 256

/-- The default of the parameter `PCW`, the width of PC in bits (00_scope.md R6, decision D5). -/
abbrev defaultPcw : Nat := 32

/-- The free value behind the parameter `nanOf` (42_arithmetic.md R143, decision D14): 64 bits about which nothing is known,
a function of the operation and the two operand patterns alone. `Machine.nanOf` forces the bits R143 guarantees.
Log entry 7. -/
opaque freeNan : AluOp → Value → Value → Value

end Config

end Sys2Proof
end

