-- ==== Sys2Proof/Syntax.lean ====
section
/-! DEFINITION. The instructions: one constructor per row of spec/opcode_table.json (30_encoding.md R84). -/

namespace Sys2Proof

/-- The 17 instructions. The register of a transfer and the constant of a short push are part of the opcode (30_encoding.md
R89), so PUSH_CONST is the only one with a field: its 64-bit immediate, which may be any pattern (R83). -/
inductive Instr where
  /-- HALT (40_control.md R113). -/
  | halt
  /-- NOP (40_control.md R114). -/
  | nop
  /-- PUSH_M1 (41_push.md R120). -/
  | pushM1
  /-- PUSH_0 (41_push.md R121). -/
  | push0
  /-- PUSH_1 (41_push.md R122). -/
  | push1
  /-- PUSH_2 (41_push.md R123). -/
  | push2
  /-- PUSH_CONST with its immediate (41_push.md R124). -/
  | pushConst (imm64 : Value)
  /-- ADD (42_arithmetic.md R147). -/
  | add
  /-- SUB (42_arithmetic.md R148). -/
  | sub
  /-- MUL (42_arithmetic.md R149). -/
  | mul
  /-- DIV (42_arithmetic.md R150). -/
  | div
  /-- NEG (42_arithmetic.md R151). -/
  | neg
  /-- LOAD_R1 (43_register_transfer.md R180). -/
  | loadR1
  /-- LOAD_R2 (43_register_transfer.md R181). -/
  | loadR2
  /-- STORE_R1 (43_register_transfer.md R182). -/
  | storeR1
  /-- STORE_R2 (43_register_transfer.md R183). -/
  | storeR2
  /-- PRINT (44_output.md R201). -/
  | print
  deriving DecidableEq, Repr

end Sys2Proof
end

