-- ==== Sys2Proof/Decode.lean ====
section
/-! DEFINITION. The decoder, total on any bytes, and after it the encoder (30_encoding.md R80 to R90). Both take the opcode map
as an argument (R85); `OpcodeMap.standard` is the default table of R84. -/

namespace Sys2Proof

/-! ### The opcode map -/

/-- The default opcode map, the table of 30_encoding.md R84 (decision D3). -/
def OpcodeMap.standard : OpcodeMap where
  halt      := 0x00#8
  nop       := 0x01#8
  pushM1    := 0x02#8
  push0     := 0x03#8
  push1     := 0x04#8
  push2     := 0x05#8
  pushConst := 0x06#8
  add       := 0x07#8
  sub       := 0x08#8
  mul       := 0x09#8
  div       := 0x0A#8
  neg       := 0x0B#8
  loadR1    := 0x0C#8
  loadR2    := 0x0D#8
  storeR1   := 0x0E#8
  storeR2   := 0x0F#8
  print     := 0x10#8

/-- `opcodeMap(i)`: the byte the map gives an instruction (30_encoding.md R85). -/
def OpcodeMap.tag (m : OpcodeMap) : Opcode → Byte
  | .halt      => m.halt
  | .nop       => m.nop
  | .pushM1    => m.pushM1
  | .push0     => m.push0
  | .push1     => m.push1
  | .push2     => m.push2
  | .pushConst => m.pushConst
  | .add       => m.add
  | .sub       => m.sub
  | .mul       => m.mul
  | .div       => m.div
  | .neg       => m.neg
  | .loadR1    => m.loadR1
  | .loadR2    => m.loadR2
  | .storeR1   => m.storeR1
  | .storeR2   => m.storeR2
  | .print     => m.print

/-- The 17 instructions in the order of 30_encoding.md R84. -/
def Opcode.all : List Opcode :=
  [.halt, .nop, .pushM1, .push0, .push1, .push2, .pushConst, .add, .sub, .mul, .div, .neg,
   .loadR1, .loadR2, .storeR1, .storeR2, .print]

/-- The 17 bytes of a map, in the order of `Opcode.all`. -/
def OpcodeMap.tags (m : OpcodeMap) : List Byte := Opcode.all.map m.tag

/-- `decode : Bits(8) -> Option Instr` of 30_encoding.md R86: the instruction whose byte the tag is, or none. -/
def OpcodeMap.decode (m : OpcodeMap) (tag : Byte) : Option Opcode :=
  Opcode.all.find? (fun o => m.tag o == tag)

/-- How many immediate bytes follow the tag: 8 for PUSH_CONST, the only instruction of format I, and none for the others
(30_encoding.md R80 to R82, R85 (c)). -/
def Opcode.immBytes : Opcode → Nat
  | .pushConst => 8
  | .halt | .nop | .pushM1 | .push0 | .push1 | .push2 | .add | .sub | .mul | .div | .neg
  | .loadR1 | .loadR2 | .storeR1 | .storeR2 | .print => 0

/-- The length in bytes of an instruction, told from its opcode alone: 1 or 9 (30_encoding.md R87). -/
def Opcode.length (o : Opcode) : Nat := 1 + o.immBytes

/-- The longest instruction, 9 bytes (30_encoding.md R80). -/
def maxInstrBytes : Nat := 9

/-! ### Byte order -/

/-- Little-endian assembly: the byte at the lowest address is least significant (20_memory.md R52, R53). -/
def leNat : List Byte → Nat
  | []      => 0
  | b :: bs => b.toNat + 256 * leNat bs

/-- The `n` low bytes of a number, least significant first (20_memory.md R52). -/
def leBytes : Nat → Nat → List Byte
  | 0,     _ => []
  | n + 1, v => BitVec.ofNat 8 v :: leBytes n (v / 256)

/-! ### Decoding -/

/-- The instruction an opcode stands for; `imm` is the immediate, which only PUSH_CONST keeps (30_encoding.md R83, R89). -/
def Opcode.toInstr (imm : Value) : Opcode → Instr
  | .halt      => .halt
  | .nop       => .nop
  | .pushM1    => .pushM1
  | .push0     => .push0
  | .push1     => .push1
  | .push2     => .push2
  | .pushConst => .pushConst imm
  | .add       => .add
  | .sub       => .sub
  | .mul       => .mul
  | .div       => .div
  | .neg       => .neg
  | .loadR1    => .loadR1
  | .loadR2    => .loadR2
  | .storeR1   => .storeR1
  | .storeR2   => .storeR2
  | .print     => .print

/-- What the decoder answers on a list of bytes. -/
inductive Decoded where
  /-- An instruction and the bytes after it. -/
  | instr (i : Instr) (rest : List Byte)
  /-- There is no byte to read a tag from: FetchPastEnd (60_exceptions.md R219). -/
  | noByte
  /-- The tag stands for no instruction: UnknownOpcode (30_encoding.md R86, R88). -/
  | unknownOpcode (tag : Byte)
  /-- Fewer immediate bytes follow the tag than the instruction has: TruncatedImmediate (60_exceptions.md R218). -/
  | truncatedImmediate (tag : Byte)
  deriving DecidableEq, Repr

/-- Decode one instruction at the head of a byte list. The length is told from the tag alone, and the immediate bytes are
never decoded as tags (30_encoding.md R86, R87). -/
def decodeBytes (m : OpcodeMap) : List Byte → Decoded
  | []          => .noByte
  | tag :: rest =>
    match m.decode tag with
    | none   => .unknownOpcode tag
    | some o =>
      if rest.length < o.immBytes then .truncatedImmediate tag
      else .instr (o.toInstr (BitVec.ofNat 64 (leNat (rest.take o.immBytes)))) (rest.drop o.immBytes)

/-! ### Encoding -/

/-- The opcode of an instruction: the instruction without its immediate. -/
def Instr.opcode : Instr → Opcode
  | .halt        => .halt
  | .nop         => .nop
  | .pushM1      => .pushM1
  | .push0       => .push0
  | .push1       => .push1
  | .push2       => .push2
  | .pushConst _ => .pushConst
  | .add         => .add
  | .sub         => .sub
  | .mul         => .mul
  | .div         => .div
  | .neg         => .neg
  | .loadR1      => .loadR1
  | .loadR2      => .loadR2
  | .storeR1     => .storeR1
  | .storeR2     => .storeR2
  | .print       => .print

/-- The bytes after the tag: the immediate of PUSH_CONST, least significant byte first, and nothing for the other
instructions (30_encoding.md R81, R82). -/
def Instr.trailing : Instr → List Byte
  | .pushConst imm => leBytes 8 imm.toNat
  | .halt | .nop | .pushM1 | .push0 | .push1 | .push2 | .add | .sub | .mul | .div | .neg
  | .loadR1 | .loadR2 | .storeR1 | .storeR2 | .print => []

/-- The bytes of an instruction in address order: its tag, then its immediate (30_encoding.md R80 to R82, R84). -/
def encode (m : OpcodeMap) (i : Instr) : List Byte := m.tag i.opcode :: i.trailing

/-! ### The opcode table's numbering of bits -/

/-- The bytes of a table word: bit 0 is the least significant bit of the first byte, the bits above `nbits` are 0, and the list
is as long as the longest instruction. -/
def tableBytes (nbits w : Nat) : List Byte := leBytes maxInstrBytes (w % 2 ^ nbits)

/-- The instruction the decoder reads, under the default opcode map, from a table word of `nbits` bits. -/
def decodeTableWord (nbits w : Nat) : Option Instr :=
  match decodeBytes OpcodeMap.standard (tableBytes nbits w) with
  | .instr i _            => some i
  | .noByte               => none
  | .unknownOpcode _      => none
  | .truncatedImmediate _ => none

end Sys2Proof
end

