-- ==== Sys2Proof/WellFormed.lean ====
section
/-! DEFINITION. What a well-formed instruction, opcode map and launch are (30_encoding.md R83, R85; 00_scope.md R6). -/

namespace Sys2Proof

/-- An instruction is well formed when its fields are legal. Every 64-bit pattern is a legal immediate (30_encoding.md R83) and
no other instruction has a field (R89), so the types alone rule out every ill-formed instruction. -/
def Instr.wf : Instr → Bool
  | .pushConst _ => true
  | .halt | .nop | .pushM1 | .push0 | .push1 | .push2 | .add | .sub | .mul | .div | .neg
  | .loadR1 | .loadR2 | .storeR1 | .storeR2 | .print => true

/-- 30_encoding.md R85 (a): the 17 bytes are distinct. -/
def OpcodeMap.distinctTags (m : OpcodeMap) : Bool := decide m.tags.Nodup

/-- 30_encoding.md R85 (b): 0xFF is not one of the 17 bytes. -/
def OpcodeMap.avoidsFF (m : OpcodeMap) : Bool := !m.tags.contains 0xFF#8

/-- The constraints of 30_encoding.md R85 on an opcode map. Constraint (c), that PUSH_CONST alone has format I, holds of every
map here, since `Opcode.immBytes` does not look at the map. -/
def OpcodeMap.wf (m : OpcodeMap) : Bool := m.distinctTags && m.avoidsFF

/-- The bound on the length of a stream, `L <= 2^PCW - 1` (00_scope.md R6, decision D5). -/
def streamFits (pcw len : Nat) : Bool := decide (len < 2 ^ pcw)

/-- A launch is well formed when its opcode map and its stream's length are. -/
def launchWf (m : OpcodeMap) (pcw len : Nat) : Bool := m.wf && streamFits pcw len

end Sys2Proof
end

