-- ==== Sys2Proof/Machine/State.lean ====
section
/-! DEFINITION. The state of the machine as plain data (10_state.md R20, R35), the reasons a step can stop, and reset (R36). -/

namespace Sys2Proof.Machine

open Sys2Proof

/-- The bytes of an address space: (address, byte) pairs, addresses strictly rising, no pair listing what an unlisted address
reads as. `Memory.wf` in Ops.lean says so. -/
abbrev Memory := List Host.Cell

/-- The stack memory: 256 slots of 64 bits (10_state.md R26, 20_memory.md R56). -/
abbrev Stack := Vector Value Config.stackCapacity

/-- The two registers of the register file: the index set {1, 2} (10_state.md R24). -/
inductive Reg where
  | r1 | r2
  deriving DecidableEq, Repr

/-- Why the machine terminated (60_exceptions.md R211). The codes are in Flags.lean. -/
inductive Cause where
  | haltOk
  | unknownOpcode
  | divisionByZero
  | stackUnderflow
  | stackOverflow
  | truncatedImmediate
  | fetchPastEnd
  deriving DecidableEq, Repr

/-- The architectural state of 10_state.md R20, and beside it the launch inputs and parameters of R35 that are plain data,
which no step changes. PC, FAULT_PC, L and addresses are unsigned integers (00_scope.md R7); that they fit in PCW bits is
part of the invariant of Safety.lean. Log entries 1, 2 and 8. -/
structure State where
  /-- PC: address of the next opcode byte (10_state.md R21). -/
  pc        : Nat
  /-- SP: 9-bit two's complement, -1 when the stack is empty (10_state.md R27). -/
  sp        : BitVec 9
  /-- STK[0..255] (10_state.md R26). -/
  stk       : Stack
  /-- R[1] (10_state.md R24). -/
  r1        : Value
  /-- R[2] (10_state.md R24). -/
  r2        : Value
  /-- STATUS (10_state.md R31). -/
  status    : BitVec 16
  /-- FAULT_PC (10_state.md R33). -/
  faultPc   : Nat
  /-- OUT: the values emitted, oldest first (10_state.md R34). -/
  out       : List Value
  /-- IMEM: the bytes of the instruction stream, a launch input (20_memory.md R51). -/
  imem      : Memory
  /-- L: the length of the instruction stream in bytes, a launch input (20_memory.md R51). -/
  len       : Nat
  /-- `opcodeMap`, a parameter (30_encoding.md R85). -/
  opcodeMap : OpcodeMap
  /-- `PCW`, the width of PC in bits, a parameter (10_state.md R21). -/
  pcw       : Nat
  deriving DecidableEq, Repr

/-- Why a step stops with no next state. -/
inductive Fault where
  /-- `DONE = 1`: the machine has terminated and no step is enabled until the next reset (40_control.md R111). Raised by
  `step` alone, before anything is fetched; the state stands as it is. Safe. Log entry 5. -/
  | terminated
  deriving DecidableEq, Repr

/-- Why the model gives a step no meaning. -/
inductive Refusal where
  /-- The instruction has no meaning yet. Raised by `exec` alone, by name. Safe. -/
  | notModelled (mnemonic : String)
  /-- The stream is longer than `2^PCW - 1` bytes (93_implementation_defined.md row 11: `refuse`). Raised by `step` alone.
  Safe. Log entry 11. -/
  | streamTooLong
  /-- The opcode map breaks 30_encoding.md R85 (two instructions share a byte, or one has 0xFF), so it is no opcode map of
  this hardware. Raised by `step` alone. Safe. Log entry 11. -/
  | badOpcodeMap
  deriving DecidableEq, Repr

/-- SP = EMPTY = -1, pattern 0x1FF (10_state.md R27). -/
def State.emptySp : BitVec 9 := 0x1FF#9

/-- What a slot of the stack memory holds at reset, where the spec says "unspecified; never observable" (10_state.md R36).
DESIGN CHOICE, log entry 3. -/
def State.resetSlot : Value := 0x0000000000000000#64

/-- The machine right after reset (10_state.md R36, 70_reset_and_hazards.md R250), launched with the empty stream (R253), the
default opcode map and the default PCW. Log entries 3 and 4. -/
def State.reset : State where
  pc        := 0
  sp        := State.emptySp
  stk       := Vector.replicate Config.stackCapacity State.resetSlot
  r1        := 0x0000000000000000#64
  r2        := 0x0000000000000000#64
  status    := 0x0000#16
  faultPc   := 0
  out       := []
  imem      := []
  len       := 0
  opcodeMap := OpcodeMap.standard
  pcw       := Config.defaultPcw

end Sys2Proof.Machine
end

