-- ==== Sys2Proof/Machine/Flags.lean ====
section
/-! DEFINITION. The STATUS register (10_state.md R31) and the cause codes (60_exceptions.md R211). The machine has no flags and
no condition codes, and its ALU keeps no IEEE-754 exception flag (10_state.md R29, 42_arithmetic.md R144), so nothing else
stands here. -/

namespace Sys2Proof.Machine

open Sys2Proof

/-- The 3-bit code of each termination cause (60_exceptions.md R211). -/
def Cause.code : Cause → BitVec 3
  | .haltOk             => 0#3
  | .unknownOpcode      => 1#3
  | .divisionByZero     => 2#3
  | .stackUnderflow     => 3#3
  | .stackOverflow      => 4#3
  | .truncatedImmediate => 5#3
  | .fetchPastEnd       => 6#3

/-- STATUS of a terminated machine: FAULT_TAG in bits 15:8, 0 in the reserved bits 7:4, CAUSE in bits 3:1, DONE = 1 in bit 0
(10_state.md R31). -/
def terminatedStatus (cause : Cause) (tag : Byte) : BitVec 16 := tag ++ 0#4 ++ cause.code ++ 1#1

/-- `STATUS.DONE`, bit 0 (10_state.md R31). -/
def State.done (s : State) : Bool := s.status.getLsbD 0

/-- `STATUS.CAUSE`, bits 3:1 (10_state.md R31). -/
def State.cause (s : State) : BitVec 3 := s.status.extractLsb' 1 3

/-- The reserved bits 7:4 of STATUS (10_state.md R31). -/
def State.statusReserved (s : State) : BitVec 4 := s.status.extractLsb' 4 4

/-- `STATUS.FAULT_TAG`, bits 15:8 (10_state.md R31). -/
def State.faultTag (s : State) : Byte := s.status.extractLsb' 8 8

end Sys2Proof.Machine
end

