-- ==== Sys2Proof/Machine/Operands.lean ====
section
/-! DEFINITION. Where the operands of an instruction come from: the stack effect of each instruction (40_control.md R112), the
literal constants of the short pushes (41_push.md R125), and the accesses each instruction makes (20_memory.md R60). There is
no other operand form (30_encoding.md R89). -/

namespace Sys2Proof.Machine

open Sys2Proof

/-- How many values an instruction pops and then pushes. -/
structure StackEffect where
  pops   : Nat
  pushes : Nat
  deriving DecidableEq, Repr

/-- `stackEffect(i)`, the table of 40_control.md R112. -/
def stackEffect : Opcode → StackEffect
  | .halt | .nop                                      => ⟨0, 0⟩
  | .pushM1 | .push0 | .push1 | .push2 | .pushConst   => ⟨0, 1⟩
  | .add | .sub | .mul | .div                         => ⟨2, 1⟩
  | .neg                                              => ⟨1, 1⟩
  | .loadR1 | .loadR2                                 => ⟨0, 1⟩
  | .storeR1 | .storeR2 | .print                      => ⟨1, 0⟩

/-- -1.0 (41_push.md R120, R125). -/
def constM1 : Value := 0xBFF0000000000000#64

/-- +0.0 (41_push.md R121, R125). -/
def const0 : Value := 0x0000000000000000#64

/-- 1.0 (41_push.md R122, R125). -/
def const1 : Value := 0x3FF0000000000000#64

/-- 2.0 (41_push.md R123, R125). -/
def const2 : Value := 0x4000000000000000#64

/-- The accesses an instruction makes, in whole units: bytes read from the stream, slots read and written, registers read and
written. -/
structure Accesses where
  streamBytes : Nat
  slotReads   : Nat
  slotWrites  : Nat
  regReads    : Nat
  regWrites   : Nat
  deriving DecidableEq, Repr

/-- The table of 20_memory.md R60. -/
def accesses : Opcode → Accesses
  | .pushConst                        => ⟨9, 0, 1, 0, 0⟩
  | .pushM1 | .push0 | .push1 | .push2 => ⟨1, 0, 1, 0, 0⟩
  | .add | .sub | .mul | .div         => ⟨1, 2, 1, 0, 0⟩
  | .neg                              => ⟨1, 1, 1, 0, 0⟩
  | .loadR1 | .loadR2                 => ⟨1, 0, 1, 1, 0⟩
  | .storeR1 | .storeR2               => ⟨1, 1, 0, 0, 1⟩
  | .print                            => ⟨1, 1, 0, 0, 0⟩
  | .halt | .nop                      => ⟨1, 0, 0, 0, 0⟩

end Sys2Proof.Machine
end

