-- ==== Sys2Proof/Machine/FpAlu.lean ====
section
/-! DEFINITION. The FP ALU: IEEE-754 binary64 add, subtract, multiply, divide and negate (42_arithmetic.md R140 to R144, R151,
R152). Every finite binary64 is a whole number of units of 2^-1074, the smallest subnormal, so each operation is computed
exactly over the integers and rounded once, to nearest, ties to even (R141). DEDUCED, log entry 16. -/

namespace Sys2Proof.Machine

open Sys2Proof

/-! ### Fields and classes (R140) -/

/-- The sign `s`, bit 63. -/
def fpSign (v : Value) : Bool := v.getLsbD 63

/-- The biased exponent `e`, bits 62:52. -/
def fpExp (v : Value) : Nat := v.toNat / 2 ^ 52 % 2 ^ 11

/-- The fraction `f`, bits 51:0. -/
def fpFrac (v : Value) : Nat := v.toNat % 2 ^ 52

/-- NaN: `e = 0x7FF`, `f != 0`. -/
def isNaN (v : Value) : Bool := fpExp v == 0x7FF && fpFrac v != 0

/-- A quiet NaN: a NaN with `f[51] = 1`. -/
def isQuietNaN (v : Value) : Bool := isNaN v && v.getLsbD 51

/-- Infinity: `e = 0x7FF`, `f = 0`. -/
def isInf (v : Value) : Bool := fpExp v == 0x7FF && fpFrac v == 0

/-- Finite: zero, subnormal or normal. -/
def isFinite (v : Value) : Bool := fpExp v != 0x7FF

/-- `isZero(v)`: `v[62:0] = 0` (42_arithmetic.md R152). -/
def isZero (v : Value) : Bool := v.extractLsb' 0 63 == 0#63

/-! ### The number a finite value stands for -/

/-- The magnitude of a finite value in units of 2^-1074: `f` for a zero or subnormal, `(2^52 + f) * 2^(e-1)` for a normal. A
subnormal operand is used at its value (42_arithmetic.md R142). -/
def fpMag (v : Value) : Nat :=
  if fpExp v = 0 then fpFrac v else (2 ^ 52 + fpFrac v) * 2 ^ (fpExp v - 1)

/-- A finite value as a signed number of units of 2^-1074. -/
def fpInt (v : Value) : Int := if fpSign v then -(fpMag v : Int) else (fpMag v : Int)

/-- 1.0 in units of 2^-1074. -/
def unitsPerOne : Nat := 2 ^ 1074

/-! ### Rounding -/

/-- The pattern of +infinity, without its sign bit. -/
def infMag : Nat := 0x7FF * 2 ^ 52

/-- The sign bit and the 63 bits below it, put together. -/
def fpPack (sign : Bool) (mag : Nat) : Value := BitVec.ofNat 64 ((if sign then 2 ^ 63 else 0) + mag)

/-- Divide, rounding to nearest, ties to even. -/
def divRne (num den : Nat) : Nat :=
  let q := num / den
  let r := num % den
  if 2 * r < den then q else if den < 2 * r then q + 1 else q + q % 2

/-- Round `num/den` units of 2^-1074 to the 63 low bits of a binary64, to nearest, ties to even (42_arithmetic.md R141). The
unit in the last place is `2^sh`: 1 for a subnormal (gradual underflow, R142) and for the smallest normals, and otherwise
what leaves 53 significant bits. A carry out of the significand runs on into the exponent, and a result too large for a
finite value is infinity. -/
def roundUnits (num den : Nat) : Nat :=
  let sh := (num / den).log2 - 52
  min (sh * 2 ^ 52 + divRne num (den * 2 ^ sh)) infMag

/-- Round a signed number of units of 2^-1074. An exact zero result takes the sign `zeroSign`. -/
def roundInt (n : Int) (zeroSign : Bool) : Value :=
  fpPack (if n = 0 then zeroSign else decide (n < 0)) (roundUnits n.natAbs 1)

/-! ### The operations on operands that are no NaN: `none` is an invalid operation -/

/-- The sum of two values that are no NaN (42_arithmetic.md R141). `inf + (-inf)` is invalid; `x + (-x)` is +0 for finite `x`,
and a sum of two zeros of one sign keeps it. -/
def sumNumbers (a b : Value) : Option Value :=
  if isInf a then (if isInf b && fpSign a != fpSign b then none else some a)
  else if isInf b then some b
  else some (roundInt (fpInt a + fpInt b) (fpSign a && fpSign b))

/-- The product of two values that are no NaN (42_arithmetic.md R141). `0 * inf` is invalid; the sign is the XOR of the
operands' signs. -/
def mulNumbers (a b : Value) : Option Value :=
  let sign := fpSign a ^^ fpSign b
  if isInf a || isInf b then
    (if isZero a || isZero b then none else some (fpPack sign infMag))
  else some (fpPack sign (roundUnits (fpMag a * fpMag b) unitsPerOne))

/-- The quotient of two values that are no NaN (42_arithmetic.md R141). `inf / inf` is invalid; the sign is the XOR of the
operands' signs. A zero divisor never reaches it, since DIV faults first (R144, R150); the two arms for it are what IEEE-754
gives. PRESUMED, log entry 9. -/
def divNumbers (a b : Value) : Option Value :=
  let sign := fpSign a ^^ fpSign b
  if isInf a then (if isInf b then none else some (fpPack sign infMag))
  else if isInf b then some (fpPack sign 0)
  else if isZero b then (if isZero a then none else some (fpPack sign infMag))
  else some (fpPack sign (roundUnits (fpMag a * unitsPerOne) (fpMag b)))

/-! ### NaN results -/

/-- `nanOf(op, a, b)`: the NaN an operation returns. All that is known of it is that it is a quiet NaN, `v[62:51] = 0xFFF`; its
sign and its low fraction bits are the free value `Config.freeNan` (42_arithmetic.md R143). Log entry 7. -/
def nanOf (op : AluOp) (a b : Value) : Value := Config.freeNan op a b ||| 0x7FF8000000000000#64

/-- A NaN operand or an invalid operation gives `nanOf(op, a, b)`; otherwise the result stands (42_arithmetic.md R143). -/
def orNan (op : AluOp) (a b : Value) (result : Option Value) : Value :=
  if isNaN a || isNaN b then nanOf op a b else result.getD (nanOf op a b)

/-! ### The operations -/

/-- `fneg64`: flip bit 63 only (42_arithmetic.md R151). -/
def fneg64 (a : Value) : Value := a ^^^ 0x8000000000000000#64

/-- `fadd64` (42_arithmetic.md R141, R143). -/
def fadd64 (a b : Value) : Value := orNan .add a b (sumNumbers a b)

/-- `fsub64`: `a - b` is `a + (-b)` on operands that are no NaN (42_arithmetic.md R141, R143). -/
def fsub64 (a b : Value) : Value := orNan .sub a b (sumNumbers a (fneg64 b))

/-- `fmul64` (42_arithmetic.md R141, R143). -/
def fmul64 (a b : Value) : Value := orNan .mul a b (mulNumbers a b)

/-- `fdiv64` (42_arithmetic.md R141, R143). -/
def fdiv64 (a b : Value) : Value := orNan .div a b (divNumbers a b)

end Sys2Proof.Machine
end

