-- ==== Sys2Proof/Machine/Ops.lean ====
section
/-! DEFINITION. The operations every instruction is built from: the instruction stream, the stack primitives, the register file,
PC, the output port, taking a fault, and the depth check every instruction passes first. -/

namespace Sys2Proof.Machine

open Sys2Proof

/-! ### Bytes of an address space -/

/-- What an address below `L` that is not listed reads as. A stream has all its bytes, so this only fixes which bytes the list
need not write out. Log entry 8. -/
def unlistedByte : Byte := 0x00#8

/-- Every listed address is above `lo`, they rise strictly, and no pair lists the unlisted byte. -/
def Memory.wfFrom (lo : Nat) : Memory → Bool
  | []          => true
  | (a, b) :: m => decide (lo ≤ a) && b != unlistedByte && Memory.wfFrom (a + 1) m

/-- The canonical form: addresses strictly rising, no pair that lists what an unlisted address reads as. -/
def Memory.wf (m : Memory) : Bool := Memory.wfFrom 0 m

/-- Read one byte. -/
def Memory.read : Memory → Nat → Byte
  | [],          _ => unlistedByte
  | (a, b) :: m, x => if x = a then b else Memory.read m x

/-- Put a pair in front, unless it lists the unlisted byte. -/
def Memory.cons (a : Nat) (b : Byte) (m : Memory) : Memory := if b = unlistedByte then m else (a, b) :: m

/-- Write one byte, keeping the canonical form. Only the host's launch writes the stream (20_memory.md R66). -/
def Memory.write : Memory → Nat → Byte → Memory
  | [],          x, v => Memory.cons x v []
  | (a, b) :: m, x, v =>
    if x < a then Memory.cons x v ((a, b) :: m)
    else if x = a then Memory.cons x v m
    else (a, b) :: Memory.write m x v

/-- Write bytes at rising addresses. -/
def Memory.writeBytes (m : Memory) (a : Nat) : List Byte → Memory
  | []      => m
  | b :: bs => Memory.writeBytes (Memory.write m a b) (a + 1) bs

/-- The `n` bytes at `a .. a+n-1`. -/
def Memory.readBytes (m : Memory) (a : Nat) : Nat → List Byte
  | 0     => []
  | n + 1 => Memory.read m a :: Memory.readBytes m (a + 1) n

/-! ### The instruction stream -/

/-- `IMEM[a]`, defined only for `a < L` (20_memory.md R51). -/
def State.imemByte (s : State) (a : Nat) : Option Byte := if a < s.len then some (Memory.read s.imem a) else none

/-- `MemRead(a, n)`: `n` bytes assembled little-endian, defined only when `a + n <= L` (20_memory.md R53). -/
def State.memRead (s : State) (a n : Nat) : Option (BitVec (8 * n)) :=
  if a + n ≤ s.len then some (BitVec.ofNat (8 * n) (leNat (Memory.readBytes s.imem a n))) else none

/-! ### The stack (20_memory.md R56 to R58) -/

/-- The stack's depth, SP + 1: 0 when SP is -1, up to 256 (10_state.md R27). Log entry 17. -/
def State.depth (s : State) : Nat := (s.sp + 1#9).toNat

/-- The slot a stack pointer addresses: its low 8 bits (20_memory.md R56, R59). -/
def slotOf (sp : BitVec 9) : Fin 256 := Fin.ofNat 256 sp.toNat

/-- `STK[i]`. -/
def State.slot (s : State) (i : Fin 256) : Value := s.stk[i]

/-- `STK[i] <- v`: all 64 bits of one slot, and nothing else (20_memory.md R56). -/
def State.setSlot (s : State) (i : Fin 256) (v : Value) : State := { s with stk := s.stk.set i v }

/-- `Top()`: the value `STK[SP]`. -/
def State.top (s : State) : Value := s.slot (slotOf s.sp)

/-- `Push(v)`: SP <- SP + 1, then STK[SP] <- v. -/
def State.push (s : State) (v : Value) : State :=
  State.setSlot { s with sp := s.sp + 1#9 } (slotOf (s.sp + 1#9)) v

/-- The state `Pop()` leaves: SP <- SP - 1. The slot is not cleared. The value it returns is `Top()` before. -/
def State.drop (s : State) : State := { s with sp := s.sp - 1#9 }

/-! ### The register file (10_state.md R25) -/

/-- `R[k]`. -/
def State.readReg (s : State) : Reg → Value
  | .r1 => s.r1
  | .r2 => s.r2

/-- `R[k] <- v`. -/
def State.writeReg (s : State) (v : Value) : Reg → State
  | .r1 => { s with r1 := v }
  | .r2 => { s with r2 := v }

/-! ### PC and the output port -/

/-- `pc <- p + length` when an instruction completes (10_state.md R22). -/
def State.advance (s : State) (o : Opcode) : State := { s with pc := s.pc + o.length }

/-- `Emit(v)`: append to OUT (44_output.md R200). -/
def State.emit (s : State) (v : Value) : State := { s with out := s.out ++ [v] }

/-! ### Termination -/

/-- `raise Fault(cause, tag)`: STATUS and FAULT_PC are written, and nothing else (60_exceptions.md R212). There is no return
from a fault (R222), so nothing stands beside it. DEDUCED, log entry 6. -/
def State.raiseFault (s : State) (cause : Cause) (tag : Byte) : State :=
  { s with status := terminatedStatus cause tag, faultPc := s.pc }

/-- HALT's termination: `STATUS <- 0x0001` (40_control.md R113). -/
def State.halt (s : State) : State := { s with status := terminatedStatus .haltOk 0x00#8 }

/-! ### The common checks -/

/-- The tag of an instruction under the machine's opcode map: FAULT_TAG of a fault it raises (60_exceptions.md R211). -/
def State.tagOf (s : State) (o : Opcode) : Byte := s.opcodeMap.tag o

/-- The depth checks of 40_control.md R110 on the stack effect of R112, underflow first (60_exceptions.md R220); where they
pass, `Execute_i`. -/
def State.checked (s : State) (o : Opcode) (execute : State → State) : State :=
  if s.depth < (stackEffect o).pops then s.raiseFault .stackUnderflow (s.tagOf o)
  else if Config.stackCapacity < s.depth - (stackEffect o).pops + (stackEffect o).pushes then
    s.raiseFault .stackOverflow (s.tagOf o)
  else execute s

/-! ### The shapes of effect -/

/-- `b <- Pop(); a <- Pop(); Push(f(a, b))` (42_arithmetic.md R146). -/
def State.binary (s : State) (f : Value → Value → Value) : State :=
  s.drop.drop.push (f s.drop.top s.top)

/-- `a <- Pop(); Push(f(a))`. -/
def State.unary (s : State) (f : Value → Value) : State := s.drop.push (f s.top)

/-- `R[k] <- Pop()` (43_register_transfer.md R182, R183). -/
def State.popReg (s : State) (k : Reg) : State := s.drop.writeReg s.top k

/-- `v <- Pop(); Emit(v)` (44_output.md R201). -/
def State.popEmit (s : State) : State := s.drop.emit s.top

end Sys2Proof.Machine
end

