-- ==== Sys2Proof/Machine/Arith.lean ====
section
/-! DEFINITION. The arithmetic instructions: `b` is the top of the stack and `a` the value below it (42_arithmetic.md R146 to R151). -/

namespace Sys2Proof.Machine

open Sys2Proof

/-- ADD: push `a + b` (42_arithmetic.md R147). -/
def execAdd (s : State) : Host.Outcome State Fault Refusal :=
  .next (s.checked .add fun s => (s.binary fadd64).advance .add)

/-- SUB: push `a - b` (42_arithmetic.md R148). -/
def execSub (s : State) : Host.Outcome State Fault Refusal :=
  .next (s.checked .sub fun s => (s.binary fsub64).advance .sub)

/-- MUL: push `a * b` (42_arithmetic.md R149). -/
def execMul (s : State) : Host.Outcome State Fault Refusal :=
  .next (s.checked .mul fun s => (s.binary fmul64).advance .mul)

/-- DIV: a divisor of +0.0 or -0.0 is the fault DivisionByZero, whatever the dividend is, and nothing is popped or pushed;
otherwise push `a / b` (42_arithmetic.md R150, 60_exceptions.md R215). -/
def execDiv (s : State) : Host.Outcome State Fault Refusal :=
  .next (s.checked .div fun s =>
    if isZero s.top then s.raiseFault .divisionByZero (s.tagOf .div) else (s.binary fdiv64).advance .div)

/-- NEG: flip the sign bit of the top of the stack (42_arithmetic.md R151). -/
def execNeg (s : State) : Host.Outcome State Fault Refusal :=
  .next (s.checked .neg fun s => (s.unary fneg64).advance .neg)

end Sys2Proof.Machine
end

