-- ==== Sys2Proof/Machine/Control.lean ====
section
/-! DEFINITION. Machine control: HALT and NOP (40_control.md R113, R114). -/

namespace Sys2Proof.Machine

open Sys2Proof

/-- HALT: `pc <- p + 1; STATUS <- 0x0001`. The stack need not be empty (40_control.md R113). -/
def execHalt (s : State) : Host.Outcome State Fault Refusal :=
  .next (s.checked .halt fun s => (s.advance .halt).halt)

/-- NOP: `pc <- p + 1` (40_control.md R114). -/
def execNop (s : State) : Host.Outcome State Fault Refusal :=
  .next (s.checked .nop fun s => s.advance .nop)

end Sys2Proof.Machine
end

