-- ==== Sys2Proof/Machine/Output.lean ====
section
/-! DEFINITION. PRINT, the one instruction that reaches the output port (44_output.md R200, R201). -/

namespace Sys2Proof.Machine

open Sys2Proof

/-- PRINT: pop one value and emit its pattern unchanged (44_output.md R201). -/
def execPrint (s : State) : Host.Outcome State Fault Refusal :=
  .next (s.checked .print fun s => s.popEmit.advance .print)

end Sys2Proof.Machine
end

