-- ==== Sys2Proof/Machine/Push.lean ====
section
/-! DEFINITION. The push instructions (41_push.md R120 to R124). -/

namespace Sys2Proof.Machine

open Sys2Proof

/-- PUSH_M1: push -1.0 (41_push.md R120). -/
def execPushM1 (s : State) : Host.Outcome State Fault Refusal :=
  .next (s.checked .pushM1 fun s => (s.push constM1).advance .pushM1)

/-- PUSH_0: push +0.0 (41_push.md R121). -/
def execPush0 (s : State) : Host.Outcome State Fault Refusal :=
  .next (s.checked .push0 fun s => (s.push const0).advance .push0)

/-- PUSH_1: push 1.0 (41_push.md R122). -/
def execPush1 (s : State) : Host.Outcome State Fault Refusal :=
  .next (s.checked .push1 fun s => (s.push const1).advance .push1)

/-- PUSH_2: push 2.0 (41_push.md R123). -/
def execPush2 (s : State) : Host.Outcome State Fault Refusal :=
  .next (s.checked .push2 fun s => (s.push const2).advance .push2)

/-- PUSH_CONST: push the immediate unchanged, whatever its pattern; `pc <- p + 9` (41_push.md R124). -/
def execPushConst (imm64 : Value) (s : State) : Host.Outcome State Fault Refusal :=
  .next (s.checked .pushConst fun s => (s.push imm64).advance .pushConst)

end Sys2Proof.Machine
end

