-- ==== Sys2Proof/Machine/Transfer.lean ====
section
/-! DEFINITION. The register transfers, each bit-exact (43_register_transfer.md R180 to R184). -/

namespace Sys2Proof.Machine

open Sys2Proof

/-- LOAD_R1: push r1 and keep it (43_register_transfer.md R180). -/
def execLoadR1 (s : State) : Host.Outcome State Fault Refusal :=
  .next (s.checked .loadR1 fun s => (s.push (s.readReg .r1)).advance .loadR1)

/-- LOAD_R2: push r2 and keep it (43_register_transfer.md R181). -/
def execLoadR2 (s : State) : Host.Outcome State Fault Refusal :=
  .next (s.checked .loadR2 fun s => (s.push (s.readReg .r2)).advance .loadR2)

/-- STORE_R1: pop into r1 (43_register_transfer.md R182). -/
def execStoreR1 (s : State) : Host.Outcome State Fault Refusal :=
  .next (s.checked .storeR1 fun s => (s.popReg .r1).advance .storeR1)

/-- STORE_R2: pop into r2 (43_register_transfer.md R183). -/
def execStoreR2 (s : State) : Host.Outcome State Fault Refusal :=
  .next (s.checked .storeR2 fun s => (s.popReg .r2).advance .storeR2)

end Sys2Proof.Machine
end

