-- ==== Sys2Proof/Machine/Dispatch.lean ====
section
/-! DEFINITION. The meaning of each instruction, one arm per constructor of Instr. -/

namespace Sys2Proof.Machine

open Sys2Proof

/-- What an instruction does at the state before it, PC at its tag (40_control.md R110, from the depth checks on). DEDUCED, log entry 15. -/
def exec (i : Instr) (s : State) : Host.Outcome State Fault Refusal :=
  match i with
  | .halt => Sys2Proof.Machine.execHalt s
  | .nop => Sys2Proof.Machine.execNop s
  | .pushM1 => Sys2Proof.Machine.execPushM1 s
  | .push0 => Sys2Proof.Machine.execPush0 s
  | .push1 => Sys2Proof.Machine.execPush1 s
  | .push2 => Sys2Proof.Machine.execPush2 s
  | .pushConst imm64 => Sys2Proof.Machine.execPushConst imm64 s
  | .add => Sys2Proof.Machine.execAdd s
  | .sub => Sys2Proof.Machine.execSub s
  | .mul => Sys2Proof.Machine.execMul s
  | .div => Sys2Proof.Machine.execDiv s
  | .neg => Sys2Proof.Machine.execNeg s
  | .loadR1 => Sys2Proof.Machine.execLoadR1 s
  | .loadR2 => Sys2Proof.Machine.execLoadR2 s
  | .storeR1 => Sys2Proof.Machine.execStoreR1 s
  | .storeR2 => Sys2Proof.Machine.execStoreR2 s
  | .print => Sys2Proof.Machine.execPrint s
end Sys2Proof.Machine
end

