-- ==== Sys2Proof/Machine/Fetch.lean ====
section
/-! DEFINITION. Fetching and decoding the instruction at PC (40_control.md R110), and what a launch must meet for a step to have a meaning. -/

namespace Sys2Proof.Machine

open Sys2Proof

/-- The bytes the decoder may read: those at `PC .. L-1`, no more than the longest instruction has (20_memory.md R51: an
address at or past `L` is never read). -/
def State.window (s : State) : List Byte := Memory.readBytes s.imem s.pc (min maxInstrBytes (s.len - s.pc))

/-- What fetching and decoding answers: an instruction to execute, or the fault the fetch raises. -/
inductive Fetched where
  | instr (i : Instr)
  | fault (cause : Cause) (tag : Byte)
  deriving DecidableEq, Repr

/-- The fetch of 40_control.md R110: FetchPastEnd, then UnknownOpcode, then TruncatedImmediate, each with its FAULT_TAG
(60_exceptions.md R211, R214, R218, R219). -/
def State.fetch (s : State) : Fetched :=
  match decodeBytes s.opcodeMap s.window with
  | .instr i _              => .instr i
  | .noByte                 => .fault .fetchPastEnd 0x00#8
  | .unknownOpcode tag      => .fault .unknownOpcode tag
  | .truncatedImmediate tag => .fault .truncatedImmediate tag

/-- Why a launch has no meaning: its opcode map breaks 30_encoding.md R85, or its stream is longer than `2^PCW - 1` bytes
(93_implementation_defined.md row 11). Log entry 11. -/
def State.launchProblem (s : State) : Option Refusal :=
  if !s.opcodeMap.wf then some .badOpcodeMap
  else if !streamFits s.pcw s.len then some .streamTooLong
  else none

end Sys2Proof.Machine
end

