-- ==== Sys2Proof/Machine/Step.lean ====
section
/-! DEFINITION. One step of the machine (40_control.md R110), and placing a table word where the next step fetches. -/

namespace Sys2Proof.Machine

open Sys2Proof

/-- One step: no step is enabled once DONE = 1 (40_control.md R111); otherwise fetch, decode, check and execute one
instruction (R110). A fault of the fetch is taken like any other (60_exceptions.md R212). -/
def step (s : State) : Host.Outcome State Fault Refusal :=
  if s.done then .fault .terminated
  else
    match s.launchProblem with
    | some r => .refused r
    | none   =>
      match s.fetch with
      | .instr i         => exec i s
      | .fault cause tag => .next (s.raiseFault cause tag)

/-- The state with the bytes of a table word in the instruction stream at PC, and the stream long enough to hold them: the
stand-in for a host that launches a program (70_reset_and_hazards.md R254). Log entry 4. -/
def State.withFetchWord (s : State) (nbits w : Nat) : State :=
  { s with
    imem := Memory.writeBytes s.imem s.pc (tableBytes nbits w)
    len  := max s.len (s.pc + maxInstrBytes) }

end Sys2Proof.Machine
end

