-- ==== Sys2Proof/Machine/HostPort.lean ====
section
/-! DEFINITION. What the host can do to the machine and read of it (70_reset_and_hazards.md R250 to R254, R258 to R260). These
are events between steps, never steps. Log entry 10. -/

namespace Sys2Proof.Machine

open Sys2Proof

/-- The state when reset ends, for a host that presented the stream and its length (70_reset_and_hazards.md R254). `fill` is
whatever the stack memory powers up with, which the spec leaves unspecified (10_state.md R36): an argument, so that a
statement can hold for every one. -/
def State.launch (m : OpcodeMap) (pcw : Nat) (stream : List Byte) (fill : Stack) : State :=
  { State.reset with
    stk       := fill
    imem      := Memory.writeBytes [] 0 stream
    len       := stream.length
    opcodeMap := m
    pcw       := pcw }

/-- The reset input, accepted in any state: every piece of architectural state takes its reset value, and the launch inputs the
host presents stay (70_reset_and_hazards.md R250, R259, 10_state.md R36). `fill` as in `State.launch`. -/
def State.hostReset (s : State) (fill : Stack) : State :=
  { State.reset with
    stk       := fill
    imem      := s.imem
    len       := s.len
    opcodeMap := s.opcodeMap
    pcw       := s.pcw }

/-- The status port: STATUS and FAULT_PC (70_reset_and_hazards.md R258). -/
def State.statusPort (s : State) : BitVec 16 × Nat := (s.status, s.faultPc)

/-- The exit status the host forms once DONE = 1: the CAUSE value (60_exceptions.md R223). -/
def State.exitStatus (s : State) : Option Nat := if s.done then some s.cause.toNat else none

/-- What the output port sent between two states of one run: the values of `t.out` after those of `s.out` (44_output.md R200,
10_state.md R34). -/
def State.emittedBetween (s t : State) : List Value := t.out.drop s.out.length

end Sys2Proof.Machine
end

