-- ==== Sys2Proof/Safety.lean ====
section
/-! DEFINITION. The terms the claims are stated in: the invariant of a run, what of the stack is visible, the machine on a list
stack, the IEEE-754 reading of a value and its correct rounding, and postfix evaluation. None of it is part of the machine. -/

namespace Sys2Proof.Machine

open Sys2Proof

/-! ### The invariant -/

/-- What holds in every state a run can be in (10_state.md R21, R22, R27, R31, R33; 00_scope.md R6; 30_encoding.md R85). -/
structure RunInv (s : State) : Prop where
  /-- The opcode map meets R85 and the stream fits in PCW bits (00_scope.md R6). -/
  launch      : launchWf s.opcodeMap s.pcw s.len = true
  /-- The bytes of the stream are in canonical form. -/
  canonical   : Memory.wf s.imem = true
  /-- No byte is listed at or past `L`. -/
  inStream    : ∀ c ∈ s.imem, c.1 < s.len
  /-- `-1 <= SP <= 255` (R27). -/
  spLegal     : -1 ≤ s.sp.toInt ∧ s.sp.toInt ≤ 255
  /-- `PC <= L` (R22). -/
  pcInStream  : s.pc ≤ s.len
  /-- Bits 7:4 of STATUS read 0 (R31). -/
  reserved    : s.statusReserved = 0#4
  /-- CAUSE 7 is never written (R31). -/
  causeLegal  : s.cause.toNat ≤ 6
  /-- STATUS reads 0 while the machine runs (R31). -/
  running     : s.done = false → s.status = 0#16
  /-- A clean halt, like a running machine, has FAULT_TAG 0x00 and FAULT_PC 0 (R31, R33). -/
  noFault     : s.cause = 0#3 → s.faultTag = 0x00#8 ∧ s.faultPc = 0
  /-- After a fault FAULT_PC and PC are the faulting instruction's address (R22, R33). -/
  faultPcIsPc : s.cause ≠ 0#3 → s.faultPc = s.pc
  /-- FetchPastEnd has FAULT_TAG 0x00 and FAULT_PC `L` (R31, R33). -/
  pastEnd     : s.cause = 6#3 → s.faultTag = 0x00#8 ∧ s.faultPc = s.len
  /-- For every other fault FAULT_TAG is the opcode byte at FAULT_PC (R31). -/
  faultTag    : s.cause ≠ 0#3 → s.cause ≠ 6#3 → s.imemByte s.faultPc = some s.faultTag

/-- The machine has terminated with a fault: DONE = 1 and CAUSE is not HALT_OK (60_exceptions.md R210, R211). -/
def State.faulted (s : State) : Prop := s.done = true ∧ s.cause ≠ 0#3

/-! ### What of the stack is visible -/

/-- The state with every slot above the top set to 0: two states agree on all that can be observed exactly when their visible
parts are equal (10_state.md R28). -/
def State.visible (s : State) : State :=
  { s with stk := Vector.ofFn fun i => if i.val < s.depth then s.slot i else 0#64 }

/-- Apply a function to the next state, if there is one. -/
def mapNext {α β : Type} (f : α → β) : Host.Outcome α Fault Refusal → Host.Outcome β Fault Refusal
  | .next s    => .next (f s)
  | .fault r   => .fault r
  | .refused r => .refused r

/-! ### Changes of state, in the spec's terms -/

/-- `STK[i]` for an integer `0 <= i <= 255` (20_memory.md R56). -/
def State.stackAt (s : State) (i : Int) : Value := s.slot (Fin.ofNat 256 i.toNat)

/-- `-1 <= SP <= 255` (10_state.md R27). -/
def State.spInRange (s : State) : Prop := -1 ≤ s.sp.toInt ∧ s.sp.toInt ≤ 255

/-- Everything but PC, SP and the stack memory is as before. -/
def OnlyStackAndPc (s t : State) : Prop := t = { s with pc := t.pc, sp := t.sp, stk := t.stk }

/-- `t` is `s` after an instruction of `n` bytes pushed `v`: SP goes up by 1, `STK[SP]` is `v`, every other slot and everything
else is as before. -/
def Pushes (n : Nat) (v : Value) (s t : State) : Prop :=
  OnlyStackAndPc s t ∧ t.pc = s.pc + n ∧ t.sp.toInt = s.sp.toInt + 1 ∧
  ∀ j : Fin 256, t.slot j = if (j.val : Int) = s.sp.toInt + 1 then v else s.slot j

/-- `t` is `s` after a 1-byte instruction moved SP by `d` and wrote `v` to `STK[SP]` of the new SP: every other slot and
everything else is as before. -/
def WritesTop (d : Int) (v : Value) (s t : State) : Prop :=
  OnlyStackAndPc s t ∧ t.pc = s.pc + 1 ∧ t.sp.toInt = s.sp.toInt + d ∧
  ∀ j : Fin 256, t.slot j = if (j.val : Int) = s.sp.toInt + d then v else s.slot j

/-- The state after `raise Fault(cause, tag)` by the instruction at `s.pc`, CAUSE as its number (60_exceptions.md R212, 10_state.md
R31). -/
def State.afterFault (s : State) (cause : BitVec 3) (tag : Byte) : State :=
  { s with status := tag ++ 0#4 ++ cause ++ 1#1, faultPc := s.pc }

/-- LOAD_R1 or LOAD_R2. -/
def Reg.load : Reg → Instr
  | .r1 => .loadR1
  | .r2 => .loadR2

/-- STORE_R1 or STORE_R2. -/
def Reg.store : Reg → Instr
  | .r1 => .storeR1
  | .r2 => .storeR2

/-! ### The machine on a list stack -/

/-- The architectural state with the stack as a list, top first, and no hidden slots. -/
structure ListMachine where
  pc      : Nat
  stack   : List Value
  r1      : Value
  r2      : Value
  status  : BitVec 16
  faultPc : Nat
  out     : List Value
  deriving DecidableEq, Repr

/-- The values of the stack, top first: `STK[SP], .., STK[0]` (10_state.md R27). -/
def State.stackList (s : State) : List Value :=
  ((List.range s.depth).map fun i => s.slot (Fin.ofNat 256 i)).reverse

/-- A state of the machine as a state of the list machine. -/
def State.toList (s : State) : ListMachine where
  pc      := s.pc
  stack   := s.stackList
  r1      := s.r1
  r2      := s.r2
  status  := s.status
  faultPc := s.faultPc
  out     := s.out

/-- A fault of the list machine: STATUS from its FAULT_TAG and its CAUSE, and FAULT_PC (60_exceptions.md R212). -/
def ListMachine.fault (m : ListMachine) (cause : BitVec 3) (tag : Byte) : ListMachine :=
  { m with status := tag ++ 0#4 ++ cause ++ 1#1, faultPc := m.pc }

/-- Push, or fault when 256 values are there already (60_exceptions.md R217). -/
def ListMachine.push (m : ListMachine) (tag : Byte) (length : Nat) (v : Value) : ListMachine :=
  if 256 ≤ m.stack.length then m.fault 4#3 tag else { m with pc := m.pc + length, stack := v :: m.stack }

/-- A binary operation on the two top values, or a fault when there are fewer (60_exceptions.md R216). -/
def ListMachine.binary (m : ListMachine) (tag : Byte) (f : Value → Value → Value) : ListMachine :=
  match m.stack with
  | b :: a :: rest => { m with pc := m.pc + 1, stack := f a b :: rest }
  | [_]            => m.fault 3#3 tag
  | []             => m.fault 3#3 tag

/-- Each instruction on a list stack, read straight off the rules of the instructions (40_control.md R113 to 44_output.md
R201). -/
def ListMachine.exec (m : ListMachine) (tag : Byte) : Instr → ListMachine
  | .halt        => { m with pc := m.pc + 1, status := 0x0001#16 }
  | .nop         => { m with pc := m.pc + 1 }
  | .pushM1      => m.push tag 1 0xBFF0000000000000#64
  | .push0       => m.push tag 1 0x0000000000000000#64
  | .push1       => m.push tag 1 0x3FF0000000000000#64
  | .push2       => m.push tag 1 0x4000000000000000#64
  | .pushConst v => m.push tag 9 v
  | .add         => m.binary tag fadd64
  | .sub         => m.binary tag fsub64
  | .mul         => m.binary tag fmul64
  | .div         =>
    match m.stack with
    | b :: _ :: _ => if isZero b then m.fault 2#3 tag else m.binary tag fdiv64
    | [_]         => m.fault 3#3 tag
    | []          => m.fault 3#3 tag
  | .neg         =>
    match m.stack with
    | a :: rest => { m with pc := m.pc + 1, stack := (a ^^^ 0x8000000000000000#64) :: rest }
    | []        => m.fault 3#3 tag
  | .loadR1      => m.push tag 1 m.r1
  | .loadR2      => m.push tag 1 m.r2
  | .storeR1     =>
    match m.stack with
    | v :: rest => { m with pc := m.pc + 1, stack := rest, r1 := v }
    | []        => m.fault 3#3 tag
  | .storeR2     =>
    match m.stack with
    | v :: rest => { m with pc := m.pc + 1, stack := rest, r2 := v }
    | []        => m.fault 3#3 tag
  | .print       =>
    match m.stack with
    | v :: rest => { m with pc := m.pc + 1, stack := rest, out := m.out ++ [v] }
    | []        => m.fault 3#3 tag

/-! ### The number a value stands for, and correct rounding -/

/-- Finite: the exponent field, bits 62:52, is not all ones (42_arithmetic.md R140). -/
def FiniteValue (v : Value) : Prop := v.extractLsb' 52 11 ≠ 0x7FF#11

/-- The number a finite binary64 stands for, from its sign, biased exponent (bias 1023) and fraction (42_arithmetic.md R140). -/
def realValue (v : Value) : ℚ :=
  let e := (v.extractLsb' 52 11).toNat
  let f : ℚ := ((v.extractLsb' 0 52).toNat : ℚ) / 2 ^ 52
  (if v.getLsbD 63 then -1 else 1) *
    (if e = 0 then f * (2 : ℚ) ^ (-1022 : ℤ) else (1 + f) * (2 : ℚ) ^ ((e : ℤ) - 1023))

/-- +infinity or -infinity (42_arithmetic.md R140). -/
def InfiniteValue (v : Value) : Prop := v = 0x7FF0000000000000#64 ∨ v = 0xFFF0000000000000#64

/-- A NaN: the exponent field is all ones, and the fraction is not 0 (42_arithmetic.md R140). -/
def NotANumber (v : Value) : Prop := v.extractLsb' 52 11 = 0x7FF#11 ∧ v.extractLsb' 0 52 ≠ 0#52

/-- +0.0 or -0.0. -/
def SignedZero (v : Value) : Prop := v = 0x0000000000000000#64 ∨ v = 0x8000000000000000#64

/-- The infinity of a sign. -/
def infinityOf (sign : Bool) : Value := if sign then 0xFFF0000000000000#64 else 0x7FF0000000000000#64

/-- The zero of a sign. -/
def zeroOf (sign : Bool) : Value := if sign then 0x8000000000000000#64 else 0x0000000000000000#64

/-- The operation of the ALU by name. -/
def fpOp : AluOp → Value → Value → Value
  | .add => fadd64
  | .sub => fsub64
  | .mul => fmul64
  | .div => fdiv64

/-- The invalid operations of 42_arithmetic.md R143: the difference of two infinities, `0 * inf`, and `inf / inf`. -/
def InvalidOperation : AluOp → Value → Value → Prop
  | .add, a, b => InfiniteValue a ∧ InfiniteValue b ∧ a ≠ b
  | .sub, a, b => InfiniteValue a ∧ InfiniteValue b ∧ a = b
  | .mul, a, b => (SignedZero a ∧ InfiniteValue b) ∨ (InfiniteValue a ∧ SignedZero b)
  | .div, a, b => InfiniteValue a ∧ InfiniteValue b

/-- `r` is a finite value nearest to `x`, and where another is as near, `r` is the one whose last bit is 0. -/
def NearestEven (x : ℚ) (r : Value) : Prop :=
  FiniteValue r ∧ ∀ v, FiniteValue v →
    |x - realValue r| ≤ |x - realValue v| ∧
    (|x - realValue v| = |x - realValue r| → realValue v ≠ realValue r → r.getLsbD 0 = false)

/-- `r` is `x` rounded once to binary64, to nearest, ties to even; from half a unit in the last place past the largest finite
value on, that is the infinity of the sign of `x` (42_arithmetic.md R141). -/
def RoundsTo (x : ℚ) (r : Value) : Prop :=
  (|x| < 2 ^ 1024 - 2 ^ 970 → NearestEven x r) ∧
  (2 ^ 1024 - 2 ^ 970 ≤ x → r = 0x7FF0000000000000#64) ∧
  (x ≤ -(2 ^ 1024 - 2 ^ 970) → r = 0xFFF0000000000000#64)

/-! ### Postfix evaluation -/

/-- An arithmetic expression over binary64 values. -/
inductive Expr where
  | const (v : Value)
  | neg (e : Expr)
  | add (e₁ e₂ : Expr)
  | sub (e₁ e₂ : Expr)
  | mul (e₁ e₂ : Expr)
  | div (e₁ e₂ : Expr)
  deriving DecidableEq, Repr

/-- The value of an expression under the ALU's operations. -/
def Expr.eval : Expr → Value
  | .const v   => v
  | .neg e     => fneg64 e.eval
  | .add e₁ e₂ => fadd64 e₁.eval e₂.eval
  | .sub e₁ e₂ => fsub64 e₁.eval e₂.eval
  | .mul e₁ e₂ => fmul64 e₁.eval e₂.eval
  | .div e₁ e₂ => fdiv64 e₁.eval e₂.eval

/-- The instructions of an expression in postfix order: first operand, second operand, operation. -/
def Expr.postfixOrder : Expr → List Instr
  | .const v   => [.pushConst v]
  | .neg e     => e.postfixOrder ++ [.neg]
  | .add e₁ e₂ => e₁.postfixOrder ++ e₂.postfixOrder ++ [.add]
  | .sub e₁ e₂ => e₁.postfixOrder ++ e₂.postfixOrder ++ [.sub]
  | .mul e₁ e₂ => e₁.postfixOrder ++ e₂.postfixOrder ++ [.mul]
  | .div e₁ e₂ => e₁.postfixOrder ++ e₂.postfixOrder ++ [.div]

/-- The free slots an expression needs above the stack it starts on. -/
def Expr.height : Expr → Nat
  | .const _   => 1
  | .neg e     => e.height
  | .add e₁ e₂ => max e₁.height (1 + e₂.height)
  | .sub e₁ e₂ => max e₁.height (1 + e₂.height)
  | .mul e₁ e₂ => max e₁.height (1 + e₂.height)
  | .div e₁ e₂ => max e₁.height (1 + e₂.height)

/-- No division in the expression has a divisor of +0.0 or -0.0. -/
def Expr.noZeroDivisor : Expr → Bool
  | .const _   => true
  | .neg e     => e.noZeroDivisor
  | .add e₁ e₂ => e₁.noZeroDivisor && e₂.noZeroDivisor
  | .sub e₁ e₂ => e₁.noZeroDivisor && e₂.noZeroDivisor
  | .mul e₁ e₂ => e₁.noZeroDivisor && e₂.noZeroDivisor
  | .div e₁ e₂ => e₁.noZeroDivisor && e₂.noZeroDivisor && !isZero e₂.eval

/-- Execute a list of instructions one after the other, stopping at the first that answers no next state. -/
def execAll : List Instr → State → Host.Outcome State Fault Refusal
  | [],      s => .next s
  | i :: is, s =>
    match exec i s with
    | .next t    => execAll is t
    | .fault r   => .fault r
    | .refused r => .refused r

end Sys2Proof.Machine
end

