-- ==== Sys2Proof/Certificates/Slice0/Obligations.lean ====
section
/-! DEFINITION. The statements for the provers. Where a statement rests on a choice of the model and not on a rule of the spec,
its docstring names the log entry. -/

open Sys2Proof Sys2Proof.Machine

/-! ### Reset, launch and the invariant -/

/-- The state after reset meets the invariant. -/
def Obligations.InvariantHoldsAtReset : Prop := RunInv State.reset

/-- Every well-formed launch meets the invariant, whatever the stack memory powers up with, and so does every reset of a machine
that meets it (70_reset_and_hazards.md R250, R254). The launch and the reset as host events are log entry 10. -/
def Obligations.InvariantHoldsAtEveryLaunch : Prop :=
  (∀ (m : OpcodeMap) (pcw : Nat) (stream : List Byte) (fill : Stack),
    launchWf m pcw stream.length = true → RunInv (State.launch m pcw stream fill)) ∧
  (∀ (s : State) (fill : Stack), RunInv s → RunInv (s.hostReset fill))

/-- Every step keeps the invariant, from every state that meets it. -/
def Obligations.StepKeepsTheInvariant : Prop :=
  ∀ s t : State, RunInv s → step s = .next t → RunInv t

/-- 70_reset_and_hazards.md R250 and 10_state.md R36: reset, in any state, gives every piece of state its reset value, for
every content `fill` of the stack memory, which R36 leaves unspecified; nothing of the run before survives. That reset is a
function of the state and of `fill`, and that it keeps the stream, its length, the opcode map and PCW, is the model's choice,
log entry 10. -/
def Obligations.HostResetGivesTheResetValues : Prop :=
  ∀ (s : State) (fill : Stack),
    (s.hostReset fill).pc = 0 ∧ (s.hostReset fill).sp.toInt = -1 ∧ (s.hostReset fill).sp = 0x1FF#9 ∧
    (s.hostReset fill).r1 = 0x0000000000000000#64 ∧ (s.hostReset fill).r2 = 0x0000000000000000#64 ∧
    (s.hostReset fill).status = 0x0000#16 ∧ (s.hostReset fill).done = false ∧
    (s.hostReset fill).faultPc = 0 ∧ (s.hostReset fill).out = [] ∧ (s.hostReset fill).stackList = [] ∧
    (s.hostReset fill).imem = s.imem ∧ (s.hostReset fill).len = s.len ∧
    (s.hostReset fill).opcodeMap = s.opcodeMap ∧ (s.hostReset fill).pcw = s.pcw ∧
    ∀ t : State, t.imem = s.imem → t.len = s.len → t.opcodeMap = s.opcodeMap → t.pcw = s.pcw →
      t.hostReset fill = s.hostReset fill

/-! ### The step -/

/-- From a state that meets the invariant a running machine takes a step: it is never stuck and never refused (40_control.md
R110). -/
def Obligations.RunningStepAnswersNext : Prop :=
  ∀ s : State, RunInv s → s.done = false → ∃ t, step s = .next t

/-- When a step has no next state: exactly when DONE = 1 (40_control.md R111; as the fault `terminated`, log entry 5), or when a
running machine's opcode map or stream is no launch of this hardware (log entry 11). -/
def Obligations.StepStopsOnlyWhenDoneOrBadlyLaunched : Prop :=
  ∀ s : State,
    (∀ r, step s = .fault r ↔ s.done = true ∧ r = .terminated) ∧
    (∀ r, step s = .refused r ↔ s.done = false ∧
      ((r = .badOpcodeMap ∧ s.opcodeMap.wf = false) ∨
       (r = .streamTooLong ∧ s.opcodeMap.wf = true ∧ 2 ^ s.pcw ≤ s.len)))

/-- 40_control.md R111: a run from any state that meets the invariant reaches DONE = 1 within `L + 1 - PC` steps (`L + 1` from
reset), and no step is enabled there. -/
def Obligations.EveryRunTerminatesWithinStreamLength : Prop :=
  ∀ s : State, RunInv s → ∃ (k : Nat) (t : State),
    k ≤ s.len + 1 - s.pc ∧ Host.Core.run Sys2Proof.core k s = .next t ∧ t.done = true ∧
    step t = .fault .terminated

/-- When the bytes at PC decode to an instruction, a running machine's step is that instruction's execution (40_control.md
R110). -/
def Obligations.StepRunsTheDecodedInstruction : Prop :=
  ∀ (s : State) (i : Instr) (rest : List Byte),
    s.done = false → launchWf s.opcodeMap s.pcw s.len = true →
    decodeBytes s.opcodeMap s.window = .instr i rest → step s = exec i s

/-- When `IMEM[PC ..]` holds the bytes of an instruction under the machine's opcode map, a running machine's step is that
instruction's execution, whatever bytes follow (40_control.md R110, 30_encoding.md R87). -/
def Obligations.StepRunsTheEncodedInstruction : Prop :=
  ∀ (s : State) (i : Instr),
    s.done = false → launchWf s.opcodeMap s.pcw s.len = true →
    (∀ (k : Nat) (h : k < (encode s.opcodeMap i).length),
      s.imemByte (s.pc + k) = some (encode s.opcodeMap i)[k]) →
    step s = exec i s

/-- A table word placed where the next step fetches is the instruction the next step runs. The placing is log entry 4. -/
def Obligations.WithFetchWordRunsThatInstruction : Prop :=
  ∀ (s : State) (nbits w : Nat) (i : Instr),
    s.done = false → s.opcodeMap = OpcodeMap.standard → Memory.wf s.imem = true →
    s.len < 2 ^ s.pcw → s.pc + 9 < 2 ^ s.pcw →
    decodeTableWord nbits w = some i →
    step (s.withFetchWord nbits w) = exec i (s.withFetchWord nbits w)

/-! ### Encoding -/

/-- Decoding the bytes of an instruction gives it back with the bytes after it, for every opcode map that meets 30_encoding.md
R85, every instruction and every immediate. -/
def Obligations.DecodeOfEncode : Prop :=
  ∀ (m : OpcodeMap) (i : Instr) (rest : List Byte),
    m.wf = true → i.wf = true → decodeBytes m (encode m i ++ rest) = .instr i rest

/-- Each byte string has one reading: bytes that decode to an instruction are that instruction's bytes and the rest. -/
def Obligations.EncodeOfDecode : Prop :=
  ∀ (m : OpcodeMap) (bytes : List Byte) (i : Instr) (rest : List Byte),
    decodeBytes m bytes = .instr i rest → bytes = encode m i ++ rest

/-- 30_encoding.md R84: the default opcode map, tag by tag, and a PUSH_CONST whose immediate bytes are all different. -/
def Obligations.TableWordsDecodeAsListed : Prop :=
  decodeTableWord 8 0x00 = some .halt ∧ decodeTableWord 8 0x01 = some .nop ∧
  decodeTableWord 8 0x02 = some .pushM1 ∧ decodeTableWord 8 0x03 = some .push0 ∧
  decodeTableWord 8 0x04 = some .push1 ∧ decodeTableWord 8 0x05 = some .push2 ∧
  decodeTableWord 8 0x06 = some (.pushConst 0#64) ∧
  decodeTableWord 72 0xF0E1D2C3B4A5968706 = some (.pushConst 0xF0E1D2C3B4A59687#64) ∧
  decodeTableWord 8 0x07 = some .add ∧ decodeTableWord 8 0x08 = some .sub ∧
  decodeTableWord 8 0x09 = some .mul ∧ decodeTableWord 8 0x0A = some .div ∧
  decodeTableWord 8 0x0B = some .neg ∧
  decodeTableWord 8 0x0C = some .loadR1 ∧ decodeTableWord 8 0x0D = some .loadR2 ∧
  decodeTableWord 8 0x0E = some .storeR1 ∧ decodeTableWord 8 0x0F = some .storeR2 ∧
  decodeTableWord 8 0x10 = some .print ∧ decodeTableWord 8 0xFF = none

/-- 30_encoding.md R86, R88: under an opcode map that meets R85 a tag decodes to the one instruction whose byte it is, and under
every map it decodes to none, and is refused whatever bytes follow, exactly when it is no instruction's byte; under the default
map those are the tags 0x11 to 0xFF. -/
def Obligations.TagsDecodeByTheOpcodeMap : Prop :=
  (∀ (m : OpcodeMap) (tag : Byte) (o : Opcode), m.wf = true → (m.decode tag = some o ↔ m.tag o = tag)) ∧
  (∀ (m : OpcodeMap) (tag : Byte), m.decode tag = none ↔ ∀ o : Opcode, m.tag o ≠ tag) ∧
  (∀ (m : OpcodeMap) (tag : Byte) (rest : List Byte),
    decodeBytes m (tag :: rest) = .unknownOpcode tag ↔ ∀ o : Opcode, m.tag o ≠ tag) ∧
  (∀ (tag : Byte) (rest : List Byte),
    decodeBytes OpcodeMap.standard (tag :: rest) = .unknownOpcode tag ↔ 0x11 ≤ tag.toNat)

/-- 30_encoding.md R87: the length is told from the tag alone, 9 bytes for PUSH_CONST and 1 byte for the others, and the
immediate bytes are never decoded. -/
def Obligations.LengthIsToldFromTheTag : Prop :=
  ∀ (m : OpcodeMap) (o : Opcode) (rest : List Byte), m.wf = true →
    (o ≠ .pushConst → ∃ i, i.opcode = o ∧ decodeBytes m (m.tag o :: rest) = .instr i rest) ∧
    (o = .pushConst → rest.length < 8 → decodeBytes m (m.tag o :: rest) = .truncatedImmediate (m.tag o)) ∧
    (o = .pushConst → 8 ≤ rest.length →
      ∃ v, decodeBytes m (m.tag o :: rest) = .instr (.pushConst v) (rest.drop 8))

/-- 30_encoding.md R80 to R82: an instruction is its tag alone, 1 byte, or for PUSH_CONST its tag and the 8 bytes of the
immediate, 9 bytes; byte `k` of the immediate is its bits `8k+7 .. 8k`. -/
def Obligations.EncodingsHaveFormatBOrI : Prop :=
  ∀ (m : OpcodeMap) (i : Instr),
    (i.opcode ≠ .pushConst → encode m i = [m.tag i.opcode]) ∧
    (∀ v : Value, i = .pushConst v → (encode m i).length = 9 ∧ (encode m i)[0]? = some m.pushConst ∧
      ∀ k, k < 8 → (encode m i)[k + 1]? = some (v.extractLsb' (8 * k) 8))

/-- 20_memory.md R53: `MemRead(a, n)` is defined exactly when `a + n <= L`, and byte `k` of it is `IMEM[a + k]`, the first
byte least significant. -/
def Obligations.MemReadIsLittleEndian : Prop :=
  ∀ (s : State) (a n : Nat),
    (a + n ≤ s.len → ∃ v, s.memRead a n = some v ∧
      ∀ k, k < n → s.imemByte (a + k) = some (v.extractLsb' (8 * k) 8)) ∧
    (s.len < a + n → s.memRead a n = none)

/-! ### Faults -/

/-- 60_exceptions.md R219: a step that begins with `PC >= L` faults with FetchPastEnd, FAULT_TAG 0x00 and FAULT_PC `PC`, which
is `L`. -/
def Obligations.FetchPastEndFaults : Prop :=
  ∀ s : State, s.done = false → launchWf s.opcodeMap s.pcw s.len = true → s.len ≤ s.pc →
    ∃ t, step s = .next t ∧ t = { s with status := 0x000D#16, faultPc := s.pc } ∧
      (s.pc ≤ s.len → t.faultPc = s.len)

/-- 60_exceptions.md R214: a tag that is no instruction's byte faults with UnknownOpcode, and FAULT_TAG records the tag; under
the default map those are the tags 0x11 to 0xFF. -/
def Obligations.UnknownOpcodeFaults : Prop :=
  ∀ (s : State) (tag : Byte), s.done = false → launchWf s.opcodeMap s.pcw s.len = true →
    s.imemByte s.pc = some tag →
    ((∀ o : Opcode, s.opcodeMap.tag o ≠ tag) → step s = .next (s.afterFault 1#3 tag)) ∧
    (s.opcodeMap = OpcodeMap.standard → 0x11 ≤ tag.toNat → step s = .next (s.afterFault 1#3 tag))

/-- 60_exceptions.md R218: a PUSH_CONST with `PC + 9 > L` faults with TruncatedImmediate, whatever the stack holds. -/
def Obligations.TruncatedImmediateFaults : Prop :=
  ∀ s : State, s.done = false → launchWf s.opcodeMap s.pcw s.len = true →
    s.imemByte s.pc = some s.opcodeMap.pushConst → s.len < s.pc + 9 →
    step s = .next (s.afterFault 5#3 s.opcodeMap.pushConst)

/-- 60_exceptions.md R216: an instruction that pops more values than the stack holds faults with StackUnderflow; the number
each one pops is the table of 40_control.md R112. -/
def Obligations.StackUnderflowFaults : Prop :=
  ∀ (s : State) (i : Instr), s.spInRange →
    ((i = .add ∨ i = .sub ∨ i = .mul ∨ i = .div) ∧ s.sp.toInt + 1 < 2) ∨
    ((i = .neg ∨ i = .storeR1 ∨ i = .storeR2 ∨ i = .print) ∧ s.sp.toInt + 1 < 1) →
    exec i s = .next (s.afterFault 3#3 (s.opcodeMap.tag i.opcode))

/-- 60_exceptions.md R217: an instruction that pushes without popping faults with StackOverflow when SP = 255, and no other
instruction ever does. -/
def Obligations.StackOverflowFaults : Prop :=
  (∀ (s : State) (i : Instr) (v : Value), s.sp.toInt = 255 →
    i = .pushM1 ∨ i = .push0 ∨ i = .push1 ∨ i = .push2 ∨ i = .pushConst v ∨ i = .loadR1 ∨ i = .loadR2 →
    exec i s = .next (s.afterFault 4#3 (s.opcodeMap.tag i.opcode))) ∧
  (∀ (s t : State) (i : Instr), s.spInRange → s.cause ≠ 4#3 → exec i s = .next t → t.cause = 4#3 →
    s.sp.toInt = 255 ∧ (stackEffect i.opcode).pops = 0 ∧ (stackEffect i.opcode).pushes = 1)

/-- 60_exceptions.md R215: DIV with a divisor of +0.0 or -0.0 faults with DivisionByZero whatever the dividend is, after the
depth check; the operands stay. -/
def Obligations.DivisionByZeroFaults : Prop :=
  ∀ s : State, 1 ≤ s.sp.toInt → s.sp.toInt ≤ 255 →
    s.stackAt s.sp.toInt = 0x0000000000000000#64 ∨ s.stackAt s.sp.toInt = 0x8000000000000000#64 →
    exec .div s = .next (s.afterFault 2#3 s.opcodeMap.div)

/-- 60_exceptions.md R220: a step reports at most one cause, the first that applies of FetchPastEnd, UnknownOpcode,
TruncatedImmediate, StackUnderflow, StackOverflow, DivisionByZero; where none applies it does not fault. -/
def Obligations.FaultPriority : Prop :=
  ∀ (s t : State), RunInv s → s.done = false → step s = .next t →
    (s.len ≤ s.pc → t.cause = 6#3) ∧
    (∀ tag, s.imemByte s.pc = some tag →
      ((∀ o : Opcode, s.opcodeMap.tag o ≠ tag) → t.cause = 1#3) ∧
      (∀ o : Opcode, s.opcodeMap.tag o = tag →
        (o = .pushConst ∧ s.len < s.pc + 9 → t.cause = 5#3) ∧
        (¬(o = .pushConst ∧ s.len < s.pc + 9) →
          (s.depth < (stackEffect o).pops → t.cause = 3#3) ∧
          ((stackEffect o).pops ≤ s.depth →
            (256 < s.depth - (stackEffect o).pops + (stackEffect o).pushes → t.cause = 4#3) ∧
            (s.depth - (stackEffect o).pops + (stackEffect o).pushes ≤ 256 →
              (o = .div ∧ SignedZero (s.stackAt s.sp.toInt) → t.cause = 2#3) ∧
              (¬(o = .div ∧ SignedZero (s.stackAt s.sp.toInt)) → t.cause = 0#3))))))

/-- 60_exceptions.md R212, R213: a step that faults writes STATUS and FAULT_PC and nothing else; PC, SP, every slot, both
registers and OUT keep the values they had. -/
def Obligations.FaultChangesOnlyStatusAndFaultPc : Prop :=
  ∀ s t : State, RunInv s → s.done = false → step s = .next t → t.faulted →
    t = { s with status := t.status, faultPc := s.pc }

/-- 60_exceptions.md R212, 10_state.md R31: taking a fault sets DONE, CAUSE and FAULT_TAG of STATUS, and FAULT_PC, and keeps
everything else. The helper `State.halt`, HALT's write of STATUS without its PC move (40_control.md R113; the whole instruction
is HaltTerminatesCleanly), sets STATUS alone, to a clean halt. The code of each cause is that of 60_exceptions.md R211. -/
def Obligations.StatusFieldsAfterTermination : Prop :=
  (∀ (s : State) (c : Cause) (tag : Byte),
    s.raiseFault c tag = { s with status := (s.raiseFault c tag).status, faultPc := s.pc } ∧
    (s.raiseFault c tag).done = true ∧ (s.raiseFault c tag).cause = c.code ∧
    (s.raiseFault c tag).statusReserved = 0#4 ∧ (s.raiseFault c tag).faultTag = tag) ∧
  (∀ s : State, s.halt = { s with status := s.halt.status } ∧ s.halt.done = true ∧ s.halt.cause = 0#3 ∧
    s.halt.statusReserved = 0#4 ∧ s.halt.faultTag = 0x00#8) ∧
  Cause.haltOk.code = 0#3 ∧ Cause.unknownOpcode.code = 1#3 ∧ Cause.divisionByZero.code = 2#3 ∧
  Cause.stackUnderflow.code = 3#3 ∧ Cause.stackOverflow.code = 4#3 ∧
  Cause.truncatedImmediate.code = 5#3 ∧ Cause.fetchPastEnd.code = 6#3

/-- 60_exceptions.md R223: once terminated, the exit status is 0 for a clean halt and 1 to 6, the CAUSE value, for a fault. -/
def Obligations.ExitStatusIsTheCause : Prop :=
  ∀ s : State, RunInv s →
    (s.done = false → s.exitStatus = none) ∧
    (s.done = true → ∃ n, s.exitStatus = some n ∧ n = s.cause.toNat ∧ n ≤ 6) ∧
    (s.exitStatus = some 0 ↔ s.done = true ∧ ¬s.faulted)

/-! ### What each instruction does -/

/-- 40_control.md R113: HALT, default tag 0x00, completes at every SP of 10_state.md R27, with PC past it and STATUS 0x0001, and
changes nothing else, whatever bytes follow it. -/
def Obligations.HaltTerminatesCleanly : Prop :=
  encode OpcodeMap.standard .halt = [0x00#8] ∧
  ∀ s : State, s.spInRange → exec .halt s = .next { s with pc := s.pc + 1, status := 0x0001#16 }

/-- 40_control.md R114: NOP, default tag 0x01, completes at every SP of 10_state.md R27, with an empty and with a full stack, and
only moves PC. -/
def Obligations.NopOnlyMovesPc : Prop :=
  encode OpcodeMap.standard .nop = [0x01#8] ∧
  ∀ s : State, s.spInRange → exec .nop s = .next { s with pc := s.pc + 1 }

/-- 41_push.md R120 to R123, R125: each short push completes whenever the stack is not full, and pushes its constant; on a full
stack it faults with StackOverflow. Their default tags are 0x02 to 0x05. -/
def Obligations.ShortPushesPushTheirConstants : Prop :=
  (encode OpcodeMap.standard .pushM1 = [0x02#8] ∧ encode OpcodeMap.standard .push0 = [0x03#8] ∧
    encode OpcodeMap.standard .push1 = [0x04#8] ∧ encode OpcodeMap.standard .push2 = [0x05#8]) ∧
  ∀ s : State, s.spInRange →
    (s.sp.toInt ≤ 254 →
      (∃ t, exec .pushM1 s = .next t ∧ Pushes 1 0xBFF0000000000000#64 s t) ∧
      (∃ t, exec .push0 s = .next t ∧ Pushes 1 0x0000000000000000#64 s t) ∧
      (∃ t, exec .push1 s = .next t ∧ Pushes 1 0x3FF0000000000000#64 s t) ∧
      (∃ t, exec .push2 s = .next t ∧ Pushes 1 0x4000000000000000#64 s t)) ∧
    (s.sp.toInt = 255 →
      exec .pushM1 s = .next (s.afterFault 4#3 s.opcodeMap.pushM1) ∧
      exec .push0 s = .next (s.afterFault 4#3 s.opcodeMap.push0) ∧
      exec .push1 s = .next (s.afterFault 4#3 s.opcodeMap.push1) ∧
      exec .push2 s = .next (s.afterFault 4#3 s.opcodeMap.push2))

/-- 41_push.md R124: PUSH_CONST at PC, default tag 0x06, faults with TruncatedImmediate when its immediate is not whole in the
stream, and then with StackOverflow on a full stack; otherwise it pushes the 8 bytes after its tag, read little-endian, bit for
bit, and PC moves by 9. -/
def Obligations.PushConstPushesTheStreamImmediate : Prop :=
  OpcodeMap.standard.pushConst = 0x06#8 ∧
  ∀ s : State, s.done = false → launchWf s.opcodeMap s.pcw s.len = true →
    s.imemByte s.pc = some s.opcodeMap.pushConst → s.spInRange →
    (s.len < s.pc + 9 → step s = .next (s.afterFault 5#3 s.opcodeMap.pushConst)) ∧
    (s.pc + 9 ≤ s.len → s.sp.toInt = 255 → step s = .next (s.afterFault 4#3 s.opcodeMap.pushConst)) ∧
    (s.pc + 9 ≤ s.len → s.sp.toInt ≤ 254 →
      ∃ imm : Value, s.memRead (s.pc + 1) 8 = some imm ∧
        exec (.pushConst imm) s = step s ∧ ∃ t, step s = .next t ∧ Pushes 9 imm s t)

/-- PUSH_CONST with any immediate completes whenever the stack is not full, and pushes the immediate bit for bit (41_push.md
R124, 30_encoding.md R83). -/
def Obligations.PushConstPushesEveryPattern : Prop :=
  ∀ (s : State) (imm : Value), -1 ≤ s.sp.toInt → s.sp.toInt ≤ 254 →
    ∃ t, exec (.pushConst imm) s = .next t ∧ Pushes 9 imm s t

/-- 42_arithmetic.md R146 to R149: ADD, SUB, MUL and DIV complete on two or more values, DIV if the top is no zero; `a` is the
value below the top and `b` the top, and the result goes to the slot where `a` was. -/
def Obligations.BinaryOperationsReplaceTheirOperands : Prop :=
  ∀ s : State, 1 ≤ s.sp.toInt → s.sp.toInt ≤ 255 →
    (∃ t, exec .add s = .next t ∧
      WritesTop (-1) (fadd64 (s.stackAt (s.sp.toInt - 1)) (s.stackAt s.sp.toInt)) s t) ∧
    (∃ t, exec .sub s = .next t ∧
      WritesTop (-1) (fsub64 (s.stackAt (s.sp.toInt - 1)) (s.stackAt s.sp.toInt)) s t) ∧
    (∃ t, exec .mul s = .next t ∧
      WritesTop (-1) (fmul64 (s.stackAt (s.sp.toInt - 1)) (s.stackAt s.sp.toInt)) s t) ∧
    (¬SignedZero (s.stackAt s.sp.toInt) → ∃ t, exec .div s = .next t ∧
      WritesTop (-1) (fdiv64 (s.stackAt (s.sp.toInt - 1)) (s.stackAt s.sp.toInt)) s t)

/-- 42_arithmetic.md R150: DIV, default tag 0x0A, faults with StackUnderflow on fewer than two values, then with DivisionByZero
on a top that is +0.0 or -0.0, whatever the dividend is; with any other top (a NaN, an infinity and a subnormal among them) it
completes, and replaces the two by `a / b`. -/
def Obligations.DivFaultsOrReplacesItsOperands : Prop :=
  encode OpcodeMap.standard .div = [0x0A#8] ∧
  ∀ s : State, s.spInRange →
    (s.sp.toInt < 1 → exec .div s = .next (s.afterFault 3#3 s.opcodeMap.div)) ∧
    (1 ≤ s.sp.toInt →
      s.stackAt s.sp.toInt = 0x0000000000000000#64 ∨ s.stackAt s.sp.toInt = 0x8000000000000000#64 →
      exec .div s = .next (s.afterFault 2#3 s.opcodeMap.div)) ∧
    (1 ≤ s.sp.toInt →
      s.stackAt s.sp.toInt ≠ 0x0000000000000000#64 → s.stackAt s.sp.toInt ≠ 0x8000000000000000#64 →
      ∃ t, exec .div s = .next t ∧
        WritesTop (-1) (fdiv64 (s.stackAt (s.sp.toInt - 1)) (s.stackAt s.sp.toInt)) s t)

/-- 42_arithmetic.md R151: NEG, default tag 0x0B, completes on one or more values and flips bit 63 of the top alone, NaNs and
zeros among them; on an empty stack it faults with StackUnderflow. -/
def Obligations.NegFlipsTheSignBit : Prop :=
  encode OpcodeMap.standard .neg = [0x0B#8] ∧
  ∀ s : State, s.spInRange →
    (s.sp.toInt = -1 → exec .neg s = .next (s.afterFault 3#3 s.opcodeMap.neg)) ∧
    (0 ≤ s.sp.toInt → ∃ t v, exec .neg s = .next t ∧ WritesTop 0 v s t ∧
      ∀ k, k < 64 → v.getLsbD k =
        if k = 63 then !(s.stackAt s.sp.toInt).getLsbD 63 else (s.stackAt s.sp.toInt).getLsbD k)

/-- 43_register_transfer.md R180, R181: a load completes whenever the stack is not full, pushes the register's pattern and keeps
the register; on a full stack it faults with StackOverflow. The default tags are 0x0C and 0x0D. -/
def Obligations.LoadsPushTheRegister : Prop :=
  (encode OpcodeMap.standard .loadR1 = [0x0C#8] ∧ encode OpcodeMap.standard .loadR2 = [0x0D#8]) ∧
  ∀ s : State, s.spInRange →
    (s.sp.toInt ≤ 254 →
      (∃ t, exec .loadR1 s = .next t ∧ Pushes 1 s.r1 s t) ∧
      (∃ t, exec .loadR2 s = .next t ∧ Pushes 1 s.r2 s t)) ∧
    (s.sp.toInt = 255 →
      exec .loadR1 s = .next (s.afterFault 4#3 s.opcodeMap.loadR1) ∧
      exec .loadR2 s = .next (s.afterFault 4#3 s.opcodeMap.loadR2))

/-- 43_register_transfer.md R182, R183: a store completes on one or more values, moves the top of the stack into its register,
and leaves every slot, the other register and everything else; on an empty stack it faults with StackUnderflow. The default
tags are 0x0E and 0x0F. -/
def Obligations.StoresPopIntoTheRegister : Prop :=
  (encode OpcodeMap.standard .storeR1 = [0x0E#8] ∧ encode OpcodeMap.standard .storeR2 = [0x0F#8]) ∧
  ∀ s : State, s.spInRange →
    (s.sp.toInt = -1 →
      exec .storeR1 s = .next (s.afterFault 3#3 s.opcodeMap.storeR1) ∧
      exec .storeR2 s = .next (s.afterFault 3#3 s.opcodeMap.storeR2)) ∧
    (0 ≤ s.sp.toInt →
      (∃ t, exec .storeR1 s = .next t ∧ t.sp.toInt = s.sp.toInt - 1 ∧
        t = { s with pc := s.pc + 1, sp := t.sp, r1 := s.stackAt s.sp.toInt }) ∧
      (∃ t, exec .storeR2 s = .next t ∧ t.sp.toInt = s.sp.toInt - 1 ∧
        t = { s with pc := s.pc + 1, sp := t.sp, r2 := s.stackAt s.sp.toInt }))

/-- 44_output.md R201: PRINT, default tag 0x10, completes on one or more values, appends the top of the stack to OUT bit for bit,
and leaves every slot, both registers and everything else; on an empty stack it faults with StackUnderflow and emits nothing. -/
def Obligations.PrintEmitsTheTop : Prop :=
  encode OpcodeMap.standard .print = [0x10#8] ∧
  ∀ s : State, s.spInRange →
    (s.sp.toInt = -1 → exec .print s = .next (s.afterFault 3#3 s.opcodeMap.print)) ∧
    (0 ≤ s.sp.toInt → ∃ t, exec .print s = .next t ∧ t.sp.toInt = s.sp.toInt - 1 ∧
      t = { s with pc := s.pc + 1, sp := t.sp, out := s.out ++ [s.stackAt s.sp.toInt] })

/-- PUSH_CONST followed by PRINT emits exactly the immediate, whatever its pattern, and leaves the stack as it was
(90_conflicts.md C1, 95_test_vectors.md W2). -/
def Obligations.PushConstThenPrintRoundTrips : Prop :=
  ∀ (s : State) (v : Value), -1 ≤ s.sp.toInt → s.sp.toInt ≤ 254 →
    ∃ t u, exec (.pushConst v) s = .next t ∧ exec .print t = .next u ∧
      u.out = s.out ++ [v] ∧ u.pc = s.pc + 10 ∧ u.stackList = s.stackList ∧ u.sp = s.sp ∧
      u.r1 = s.r1 ∧ u.r2 = s.r2 ∧ u.status = s.status ∧ u.faultPc = s.faultPc

/-- 43_register_transfer.md R184: a store followed by a load of the same register is bit-exact: the stack is as it was, and
the register holds the value of its top. -/
def Obligations.StoreThenLoadRoundTrips : Prop :=
  ∀ (s : State) (k : Reg), 0 ≤ s.sp.toInt → s.sp.toInt ≤ 255 →
    ∃ t u, exec k.store s = .next t ∧ exec k.load t = .next u ∧
      u = ({ s with pc := s.pc + 2 } : State).writeReg (s.stackAt s.sp.toInt) k

/-! ### The FP ALU -/

/-- ADD of finite values is the exact sum rounded once, to nearest, ties to even; an exact zero sum is +0 unless both operands
are -0 (42_arithmetic.md R141, R142). -/
def Obligations.AddIsCorrectlyRounded : Prop :=
  ∀ a b : Value, FiniteValue a → FiniteValue b →
    RoundsTo (realValue a + realValue b) (fadd64 a b) ∧
    (realValue a + realValue b = 0 →
      fadd64 a b = zeroOf (decide (a = zeroOf true ∧ b = zeroOf true)))

/-- SUB of finite values is the exact difference rounded once, to nearest, ties to even; an exact zero difference is +0 unless
it is (-0) - (+0) (42_arithmetic.md R141, R142). -/
def Obligations.SubIsCorrectlyRounded : Prop :=
  ∀ a b : Value, FiniteValue a → FiniteValue b →
    RoundsTo (realValue a - realValue b) (fsub64 a b) ∧
    (realValue a - realValue b = 0 →
      fsub64 a b = zeroOf (decide (a = zeroOf true ∧ b = zeroOf false)))

/-- MUL of finite values is the exact product rounded once, to nearest, ties to even, with the XOR of the operands' signs, a
zero result too (42_arithmetic.md R141, R142). -/
def Obligations.MulIsCorrectlyRounded : Prop :=
  ∀ a b : Value, FiniteValue a → FiniteValue b →
    RoundsTo (realValue a * realValue b) (fmul64 a b) ∧
    (fmul64 a b).getLsbD 63 = (a.getLsbD 63 ^^ b.getLsbD 63)

/-- DIV of finite values with a divisor that is no zero is the exact quotient rounded once, to nearest, ties to even, with the
XOR of the operands' signs, a zero result too (42_arithmetic.md R141, R142). -/
def Obligations.DivIsCorrectlyRounded : Prop :=
  ∀ a b : Value, FiniteValue a → FiniteValue b → ¬SignedZero b →
    RoundsTo (realValue a / realValue b) (fdiv64 a b) ∧
    (fdiv64 a b).getLsbD 63 = (a.getLsbD 63 ^^ b.getLsbD 63)

/-- The operations on infinities that are not invalid (42_arithmetic.md R141). -/
def Obligations.InfinitiesFollowTheSignRules : Prop :=
  ∀ a b : Value, InfiniteValue a →
    (FiniteValue b ∨ b = a → fadd64 a b = a ∧ fadd64 b a = a) ∧
    (FiniteValue b ∨ b = fneg64 a → fsub64 a b = a ∧ fsub64 b a = fneg64 a) ∧
    ((FiniteValue b ∧ ¬SignedZero b) ∨ InfiniteValue b →
      fmul64 a b = infinityOf (a.getLsbD 63 ^^ b.getLsbD 63) ∧
      fmul64 b a = infinityOf (a.getLsbD 63 ^^ b.getLsbD 63)) ∧
    (FiniteValue b ∧ ¬SignedZero b → fdiv64 a b = infinityOf (a.getLsbD 63 ^^ b.getLsbD 63)) ∧
    (FiniteValue b → fdiv64 b a = zeroOf (a.getLsbD 63 ^^ b.getLsbD 63))

/-- 42_arithmetic.md R143: an operation with a NaN operand, and an invalid operation, give `nanOf(op, a, b)`, a quiet NaN; no
other operation gives a NaN. `nanOf` is the free value of log entry 7: this holds whatever it is. -/
def Obligations.NanResultsAreQuietNans : Prop :=
  ∀ (op : AluOp) (a b : Value), (op = .div → ¬SignedZero b) →
    (NotANumber a ∨ NotANumber b ∨ InvalidOperation op a b → fpOp op a b = nanOf op a b) ∧
    (nanOf op a b).extractLsb' 51 12 = 0xFFF#12 ∧
    (NotANumber (fpOp op a b) → NotANumber a ∨ NotANumber b ∨ InvalidOperation op a b)

/-- 42_arithmetic.md R152: `isZero` holds exactly of +0.0 and -0.0, the finite values that are the number 0, and of no
subnormal, infinity or NaN. -/
def Obligations.IsZeroHoldsOfTheTwoZeros : Prop :=
  ∀ v : Value,
    (isZero v = true ↔ v.extractLsb' 0 63 = 0#63) ∧ (isZero v = true ↔ SignedZero v) ∧
    (FiniteValue v → (isZero v = true ↔ realValue v = 0)) ∧
    (InfiniteValue v ∨ NotANumber v → isZero v = false)

/-- NEG of a finite value is its additive inverse, and the sum of the two is +0 (42_arithmetic.md R141, R151). -/
def Obligations.NegIsTheAdditiveInverse : Prop :=
  ∀ a : Value, FiniteValue a →
    FiniteValue (fneg64 a) ∧ realValue (fneg64 a) = -realValue a ∧ fneg64 (fneg64 a) = a ∧
    fadd64 a (fneg64 a) = 0x0000000000000000#64 ∧ fsub64 a a = 0x0000000000000000#64

/-- ADD and MUL do not depend on the order of their operands, where the result is no NaN (42_arithmetic.md R141). -/
def Obligations.AddAndMulCommute : Prop :=
  ∀ a b : Value,
    (¬NotANumber (fadd64 a b) → fadd64 a b = fadd64 b a) ∧
    (¬NotANumber (fmul64 a b) → fmul64 a b = fmul64 b a)

/-! ### The whole machine -/

/-- 10_state.md R25: a register write stores all 64 bits and leaves the other register; no instruction but LOAD_Rk and STORE_Rk
reads or writes register k: its effect is the same whatever the register holds, and the register keeps what it held; LOAD_Rk
keeps it too. -/
def Obligations.OnlyTransfersTouchRegisters : Prop :=
  (∀ (s : State) (v : Value) (j k : Reg), (s.writeReg v k).readReg j = if j = k then v else s.readReg j) ∧
  ∀ (s : State) (i : Instr) (k : Reg),
    (∀ v : Value, i ≠ k.load → i ≠ k.store →
      exec i (s.writeReg v k) = mapNext (fun t => t.writeReg v k) (exec i s)) ∧
    (∀ t, i ≠ k.store → exec i s = .next t → t.readReg k = s.readReg k)

/-- 10_state.md R34: OUT is empty at reset; a step whose PRINT completes appends one value to OUT, and no other step changes it. -/
def Obligations.OnlyPrintAppendsToOut : Prop :=
  State.reset.out = [] ∧
  ∀ s t : State, step s = .next t →
    (s.imemByte s.pc = some s.opcodeMap.print ∧ ¬t.faulted → ∃ v, t.out = s.out ++ [v]) ∧
    (¬(s.imemByte s.pc = some s.opcodeMap.print ∧ ¬t.faulted) → t.out = s.out)

/-- 10_state.md R30: STATUS and FAULT_PC are written only by HALT and by a fault, and no instruction reads them. -/
def Obligations.StatusIsWrittenOnlyAtTermination : Prop :=
  (∀ s t : State, step s = .next t → t.done = false → t.status = s.status ∧ t.faultPc = s.faultPc) ∧
  (∀ (i : Instr) (s : State) (x : BitVec 16) (y : Nat),
    mapNext (fun t => { t with status := 0#16, faultPc := 0 }) (exec i { s with status := x, faultPc := y }) =
    mapNext (fun t => { t with status := 0#16, faultPc := 0 }) (exec i s))

/-- 10_state.md R22: PC moves by the length of the instruction at PC when it completes, 1 or 9, stays within the stream, and
stays where it is on a fault. -/
def Obligations.PcAdvancesOnlyOnCompletion : Prop :=
  ∀ s t : State, RunInv s → step s = .next t →
    (t.faulted → t.pc = s.pc) ∧
    (¬t.faulted → ∃ o : Opcode, s.imemByte s.pc = some (s.opcodeMap.tag o) ∧
      t.pc = s.pc + (if o = .pushConst then 9 else 1) ∧ t.pc ≤ s.len ∧ s.len < 2 ^ s.pcw)

/-- 10_state.md R35: no step changes the instruction stream, its length, the opcode map or the width of PC. -/
def Obligations.NoStepChangesTheLaunchInputs : Prop :=
  ∀ s t : State, step s = .next t →
    t.imem = s.imem ∧ t.len = s.len ∧ t.opcodeMap = s.opcodeMap ∧ t.pcw = s.pcw

/-- 10_state.md R28: the slots above the top are never observable: two states that differ only there step to states that differ
only there, with the same outcome. -/
def Obligations.HiddenSlotsAreNeverObserved : Prop :=
  ∀ s t : State, s.visible = t.visible →
    mapNext State.visible (step s) = mapNext State.visible (step t)

/-- 20_memory.md R60: an instruction reads no slot but those it pops and writes none but those it pushes to: its effect is the
same whatever any other slot holds, and that slot keeps what it held. -/
def Obligations.OtherSlotsAreNeitherReadNorWritten : Prop :=
  ∀ (s : State) (i : Instr) (j : Fin 256) (v : Value), s.spInRange →
    (j.val : Int) < s.sp.toInt + 1 - (stackEffect i.opcode).pops ∨
    s.sp.toInt + 1 - (stackEffect i.opcode).pops +
      max (stackEffect i.opcode).pops (stackEffect i.opcode).pushes ≤ (j.val : Int) →
    exec i (s.setSlot j v) = mapNext (fun t => t.setSlot j v) (exec i s)

/-- 40_control.md R112, 10_state.md R27: the depth is SP + 1, 0 to 256, and an instruction that completes changes it by its
pushes less its pops, while one that faults leaves it. -/
def Obligations.DepthFollowsTheStackEffect : Prop :=
  ∀ (s t : State) (i : Instr), s.spInRange → s.done = false → exec i s = .next t →
    (s.depth : Int) = s.sp.toInt + 1 ∧ s.depth ≤ 256 ∧ t.spInRange ∧
    (t.faulted → t.depth = s.depth) ∧
    (¬t.faulted → t.depth + (stackEffect i.opcode).pops = s.depth + (stackEffect i.opcode).pushes)

/-- Under another opcode map an instruction does the same, but for the FAULT_TAG of a fault (95_test_vectors.md, 30_encoding.md
R85). The opcode map as a field of State is log entry 2. -/
def Obligations.OpcodeMapChangesOnlyFaultTags : Prop :=
  ∀ (i : Instr) (s : State) (m : OpcodeMap),
    mapNext (fun t => ({ t with opcodeMap := m, status := t.status &&& 0x00FF#16 } : State))
      (exec i { s with opcodeMap := m }) =
    mapNext (fun t => ({ t with opcodeMap := m, status := t.status &&& 0x00FF#16 } : State)) (exec i s)

/-- The machine refines the machine on a list stack: every instruction, completing or faulting, does on the 256 slots and SP
what its rule does on a list of values (40_control.md R113 to 44_output.md R201). -/
def Obligations.ExecRefinesTheListMachine : Prop :=
  ∀ (i : Instr) (s : State), s.spInRange →
    ∃ t, exec i s = .next t ∧ t.spInRange ∧
      t.toList = s.toList.exec (s.opcodeMap.tag i.opcode) i

/-- An expression's instructions in postfix order, executed on a stack with room for it and with no zero divisor, leave the
stack as it was with the expression's value on top, operand order kept (95_test_vectors.md W1, 42_arithmetic.md R146). -/
def Obligations.PostfixOrderEvaluatesTheExpression : Prop :=
  ∀ (e : Expr) (s : State), s.spInRange → s.sp.toInt + e.height ≤ 255 → e.noZeroDivisor = true →
    ∃ t, execAll e.postfixOrder s = .next t ∧ t.stackList = e.eval :: s.stackList ∧ t.spInRange ∧
      t.sp.toInt = s.sp.toInt + 1 ∧
      t.r1 = s.r1 ∧ t.r2 = s.r2 ∧ t.out = s.out ∧ t.status = s.status ∧ t.faultPc = s.faultPc
end

