-- ==== Sys2Proof/Laws/Encoding.lean ====
section
/-! SUPPORT. Small laws of the decoder and the encoder. -/

namespace Sys2Proof

theorem Opcode.mem_all (o : Opcode) : o ∈ Opcode.all := by cases o <;> decide

@[simp] theorem Opcode.length_eq (o : Opcode) : o.length = if o = .pushConst then 9 else 1 := by cases o <;> rfl

@[simp] theorem length_leBytes (n v : Nat) : (leBytes n v).length = n := by
  induction n generalizing v with
  | zero => rfl
  | succ n ih => simp [leBytes, ih]

/-- Assembling the low bytes of a number gives the number, cut to those bytes. -/
theorem leNat_leBytes (n v : Nat) : leNat (leBytes n v) = v % 256 ^ n := by
  induction n generalizing v with
  | zero => simp [leBytes, leNat, Nat.mod_one]
  | succ n ih =>
    rw [leBytes, leNat, ih, BitVec.toNat_ofNat, show 2 ^ 8 = 256 from rfl, Nat.pow_succ', Nat.mod_mul (a := 256)]

theorem leNat_lt (bs : List Byte) : leNat bs < 256 ^ bs.length := by
  induction bs with
  | nil => simp [leNat]
  | cons b bs ih =>
    rw [leNat, List.length_cons, Nat.pow_succ']
    have := b.isLt
    omega

/-- The low bytes of an assembled number are the bytes. -/
theorem leBytes_leNat (bs : List Byte) : leBytes bs.length (leNat bs) = bs := by
  induction bs with
  | nil => rfl
  | cons b bs ih =>
    have hb := b.isLt
    rw [List.length_cons, leBytes, leNat]
    congr 1
    · apply BitVec.eq_of_toNat_eq
      rw [BitVec.toNat_ofNat]
      omega
    · rw [show (b.toNat + 256 * leNat bs) / 256 = leNat bs by omega, ih]

/-- The byte at position `k` of an assembled number. -/
theorem leNat_byte (bs : List Byte) (k : Nat) (h : k < bs.length) :
    leNat bs / 256 ^ k % 256 = bs[k].toNat := by
  induction bs generalizing k with
  | nil => simp at h
  | cons b bs ih =>
    have hb := b.isLt
    cases k with
    | zero => simp [leNat]; omega
    | succ k =>
      rw [leNat, Nat.pow_succ', ← Nat.div_div_eq_div_mul, show (b.toNat + 256 * leNat bs) / 256 = leNat bs by omega]
      simpa using ih k (by simpa using h)

/-! ### The opcode map -/

/-- What `decode` finds is an instruction whose byte the tag is. -/
theorem OpcodeMap.tag_of_decode {m : OpcodeMap} {tag : Byte} {o : Opcode} (h : m.decode tag = some o) : m.tag o = tag := by
  simpa using List.find?_some h

theorem OpcodeMap.decode_eq_none {m : OpcodeMap} {tag : Byte} : m.decode tag = none ↔ ∀ o, m.tag o ≠ tag := by
  simp only [OpcodeMap.decode, List.find?_eq_none, beq_iff_eq]
  exact ⟨fun h o => h o o.mem_all, fun h o _ => h o⟩

theorem OpcodeMap.tag_injective {m : OpcodeMap} (h : m.wf = true) : Function.Injective m.tag := by
  intro o p hop
  simp only [OpcodeMap.wf, OpcodeMap.distinctTags, Bool.and_eq_true, decide_eq_true_eq] at h
  exact List.inj_on_of_nodup_map h.1 o.mem_all p.mem_all hop

/-- Under a well-formed map the tag of an instruction decodes to that instruction (30_encoding.md R86). -/
theorem OpcodeMap.decode_tag {m : OpcodeMap} (h : m.wf = true) (o : Opcode) : m.decode (m.tag o) = some o := by
  cases hd : m.decode (m.tag o) with
  | none => exact absurd rfl (OpcodeMap.decode_eq_none.1 hd o)
  | some p => rw [OpcodeMap.tag_injective h (OpcodeMap.tag_of_decode hd)]

/-! ### Instructions and their opcodes -/

@[simp] theorem Opcode.opcode_toInstr (o : Opcode) (imm : Value) : (o.toInstr imm).opcode = o := by cases o <;> rfl

@[simp] theorem Instr.length_trailing (i : Instr) : i.trailing.length = i.opcode.immBytes := by
  cases i <;> simp [Instr.trailing, Instr.opcode, Opcode.immBytes]

theorem Instr.toInstr_opcode (i : Instr) : i.opcode.toInstr (BitVec.ofNat 64 (leNat i.trailing)) = i := by
  cases i with
  | pushConst imm =>
    simp only [Instr.opcode, Opcode.toInstr, Instr.trailing, leNat_leBytes]
    congr 1
    apply BitVec.eq_of_toNat_eq
    rw [BitVec.toNat_ofNat]
    have := imm.isLt
    omega
  | _ => rfl

theorem length_encode (m : OpcodeMap) (i : Instr) : (encode m i).length = i.opcode.length := by
  cases i <;> rfl

/-! ### What the decoder can answer, once and for all -/

theorem decodeBytes_nil (m : OpcodeMap) : decodeBytes m [] = .noByte := rfl

theorem decodeBytes_none {m : OpcodeMap} {tag : Byte} (rest : List Byte) (h : m.decode tag = none) :
    decodeBytes m (tag :: rest) = .unknownOpcode tag := by
  simp [decodeBytes, h]

theorem decodeBytes_short {m : OpcodeMap} {tag : Byte} {rest : List Byte} {o : Opcode} (h : m.decode tag = some o)
    (hs : rest.length < o.immBytes) : decodeBytes m (tag :: rest) = .truncatedImmediate tag := by
  simp [decodeBytes, h, hs]

theorem decodeBytes_some {m : OpcodeMap} {tag : Byte} {rest : List Byte} {o : Opcode} (h : m.decode tag = some o)
    (hs : o.immBytes ≤ rest.length) :
    decodeBytes m (tag :: rest) =
      .instr (o.toInstr (BitVec.ofNat 64 (leNat (rest.take o.immBytes)))) (rest.drop o.immBytes) := by
  simp [decodeBytes, h, Nat.not_lt.2 hs]

/-- The four answers of the decoder on a tag, with what each says of the bytes. -/
theorem decodeBytes_cases (m : OpcodeMap) (tag : Byte) (rest : List Byte) :
    (m.decode tag = none ∧ decodeBytes m (tag :: rest) = .unknownOpcode tag) ∨
    (∃ o, m.decode tag = some o ∧ rest.length < o.immBytes ∧
      decodeBytes m (tag :: rest) = .truncatedImmediate tag) ∨
    (∃ o, m.decode tag = some o ∧ o.immBytes ≤ rest.length ∧
      decodeBytes m (tag :: rest) =
        .instr (o.toInstr (BitVec.ofNat 64 (leNat (rest.take o.immBytes)))) (rest.drop o.immBytes)) := by
  cases hd : m.decode tag with
  | none => exact .inl ⟨rfl, decodeBytes_none rest hd⟩
  | some o =>
    rcases Nat.lt_or_ge rest.length o.immBytes with hs | hs
    · exact .inr (.inl ⟨o, rfl, hs, decodeBytes_short hd hs⟩)
    · exact .inr (.inr ⟨o, rfl, hs, decodeBytes_some hd hs⟩)

end Sys2Proof
end

