-- ==== Sys2Proof/Laws/State.lean ====
section
/-! SUPPORT. What each update of a state does to each field, one lemma per field per update, so that no later proof unfolds an
update. -/

namespace Sys2Proof.Machine

open Sys2Proof

/-! ### `setSlot` -/

@[simp] theorem State.setSlot_pc (s : State) (i : Fin 256) (v : Value) :
    (s.setSlot i v).pc = s.pc := rfl

@[simp] theorem State.setSlot_sp (s : State) (i : Fin 256) (v : Value) :
    (s.setSlot i v).sp = s.sp := rfl

@[simp] theorem State.setSlot_stk (s : State) (i : Fin 256) (v : Value) :
    (s.setSlot i v).stk = s.stk.set i v := rfl

@[simp] theorem State.setSlot_r1 (s : State) (i : Fin 256) (v : Value) :
    (s.setSlot i v).r1 = s.r1 := rfl

@[simp] theorem State.setSlot_r2 (s : State) (i : Fin 256) (v : Value) :
    (s.setSlot i v).r2 = s.r2 := rfl

@[simp] theorem State.setSlot_status (s : State) (i : Fin 256) (v : Value) :
    (s.setSlot i v).status = s.status := rfl

@[simp] theorem State.setSlot_faultPc (s : State) (i : Fin 256) (v : Value) :
    (s.setSlot i v).faultPc = s.faultPc := rfl

@[simp] theorem State.setSlot_out (s : State) (i : Fin 256) (v : Value) :
    (s.setSlot i v).out = s.out := rfl

@[simp] theorem State.setSlot_imem (s : State) (i : Fin 256) (v : Value) :
    (s.setSlot i v).imem = s.imem := rfl

@[simp] theorem State.setSlot_len (s : State) (i : Fin 256) (v : Value) :
    (s.setSlot i v).len = s.len := rfl

@[simp] theorem State.setSlot_opcodeMap (s : State) (i : Fin 256) (v : Value) :
    (s.setSlot i v).opcodeMap = s.opcodeMap := rfl

@[simp] theorem State.setSlot_pcw (s : State) (i : Fin 256) (v : Value) :
    (s.setSlot i v).pcw = s.pcw := rfl

/-! ### `push` -/

@[simp] theorem State.push_pc (s : State) (v : Value) :
    (s.push v).pc = s.pc := rfl

@[simp] theorem State.push_sp (s : State) (v : Value) :
    (s.push v).sp = s.sp + 1#9 := rfl

@[simp] theorem State.push_stk (s : State) (v : Value) :
    (s.push v).stk = s.stk.set (slotOf (s.sp + 1#9)) v := rfl

@[simp] theorem State.push_r1 (s : State) (v : Value) :
    (s.push v).r1 = s.r1 := rfl

@[simp] theorem State.push_r2 (s : State) (v : Value) :
    (s.push v).r2 = s.r2 := rfl

@[simp] theorem State.push_status (s : State) (v : Value) :
    (s.push v).status = s.status := rfl

@[simp] theorem State.push_faultPc (s : State) (v : Value) :
    (s.push v).faultPc = s.faultPc := rfl

@[simp] theorem State.push_out (s : State) (v : Value) :
    (s.push v).out = s.out := rfl

@[simp] theorem State.push_imem (s : State) (v : Value) :
    (s.push v).imem = s.imem := rfl

@[simp] theorem State.push_len (s : State) (v : Value) :
    (s.push v).len = s.len := rfl

@[simp] theorem State.push_opcodeMap (s : State) (v : Value) :
    (s.push v).opcodeMap = s.opcodeMap := rfl

@[simp] theorem State.push_pcw (s : State) (v : Value) :
    (s.push v).pcw = s.pcw := rfl

/-! ### `drop` -/

@[simp] theorem State.drop_pc (s : State) :
    s.drop.pc = s.pc := rfl

@[simp] theorem State.drop_sp (s : State) :
    s.drop.sp = s.sp - 1#9 := rfl

@[simp] theorem State.drop_stk (s : State) :
    s.drop.stk = s.stk := rfl

@[simp] theorem State.drop_r1 (s : State) :
    s.drop.r1 = s.r1 := rfl

@[simp] theorem State.drop_r2 (s : State) :
    s.drop.r2 = s.r2 := rfl

@[simp] theorem State.drop_status (s : State) :
    s.drop.status = s.status := rfl

@[simp] theorem State.drop_faultPc (s : State) :
    s.drop.faultPc = s.faultPc := rfl

@[simp] theorem State.drop_out (s : State) :
    s.drop.out = s.out := rfl

@[simp] theorem State.drop_imem (s : State) :
    s.drop.imem = s.imem := rfl

@[simp] theorem State.drop_len (s : State) :
    s.drop.len = s.len := rfl

@[simp] theorem State.drop_opcodeMap (s : State) :
    s.drop.opcodeMap = s.opcodeMap := rfl

@[simp] theorem State.drop_pcw (s : State) :
    s.drop.pcw = s.pcw := rfl

/-! ### `advance` -/

@[simp] theorem State.advance_pc (s : State) (o : Opcode) :
    (s.advance o).pc = s.pc + o.length := rfl

@[simp] theorem State.advance_sp (s : State) (o : Opcode) :
    (s.advance o).sp = s.sp := rfl

@[simp] theorem State.advance_stk (s : State) (o : Opcode) :
    (s.advance o).stk = s.stk := rfl

@[simp] theorem State.advance_r1 (s : State) (o : Opcode) :
    (s.advance o).r1 = s.r1 := rfl

@[simp] theorem State.advance_r2 (s : State) (o : Opcode) :
    (s.advance o).r2 = s.r2 := rfl

@[simp] theorem State.advance_status (s : State) (o : Opcode) :
    (s.advance o).status = s.status := rfl

@[simp] theorem State.advance_faultPc (s : State) (o : Opcode) :
    (s.advance o).faultPc = s.faultPc := rfl

@[simp] theorem State.advance_out (s : State) (o : Opcode) :
    (s.advance o).out = s.out := rfl

@[simp] theorem State.advance_imem (s : State) (o : Opcode) :
    (s.advance o).imem = s.imem := rfl

@[simp] theorem State.advance_len (s : State) (o : Opcode) :
    (s.advance o).len = s.len := rfl

@[simp] theorem State.advance_opcodeMap (s : State) (o : Opcode) :
    (s.advance o).opcodeMap = s.opcodeMap := rfl

@[simp] theorem State.advance_pcw (s : State) (o : Opcode) :
    (s.advance o).pcw = s.pcw := rfl

/-! ### `emit` -/

@[simp] theorem State.emit_pc (s : State) (v : Value) :
    (s.emit v).pc = s.pc := rfl

@[simp] theorem State.emit_sp (s : State) (v : Value) :
    (s.emit v).sp = s.sp := rfl

@[simp] theorem State.emit_stk (s : State) (v : Value) :
    (s.emit v).stk = s.stk := rfl

@[simp] theorem State.emit_r1 (s : State) (v : Value) :
    (s.emit v).r1 = s.r1 := rfl

@[simp] theorem State.emit_r2 (s : State) (v : Value) :
    (s.emit v).r2 = s.r2 := rfl

@[simp] theorem State.emit_status (s : State) (v : Value) :
    (s.emit v).status = s.status := rfl

@[simp] theorem State.emit_faultPc (s : State) (v : Value) :
    (s.emit v).faultPc = s.faultPc := rfl

@[simp] theorem State.emit_out (s : State) (v : Value) :
    (s.emit v).out = s.out ++ [v] := rfl

@[simp] theorem State.emit_imem (s : State) (v : Value) :
    (s.emit v).imem = s.imem := rfl

@[simp] theorem State.emit_len (s : State) (v : Value) :
    (s.emit v).len = s.len := rfl

@[simp] theorem State.emit_opcodeMap (s : State) (v : Value) :
    (s.emit v).opcodeMap = s.opcodeMap := rfl

@[simp] theorem State.emit_pcw (s : State) (v : Value) :
    (s.emit v).pcw = s.pcw := rfl

/-! ### `raiseFault` -/

@[simp] theorem State.raiseFault_pc (s : State) (c : Cause) (tag : Byte) :
    (s.raiseFault c tag).pc = s.pc := rfl

@[simp] theorem State.raiseFault_sp (s : State) (c : Cause) (tag : Byte) :
    (s.raiseFault c tag).sp = s.sp := rfl

@[simp] theorem State.raiseFault_stk (s : State) (c : Cause) (tag : Byte) :
    (s.raiseFault c tag).stk = s.stk := rfl

@[simp] theorem State.raiseFault_r1 (s : State) (c : Cause) (tag : Byte) :
    (s.raiseFault c tag).r1 = s.r1 := rfl

@[simp] theorem State.raiseFault_r2 (s : State) (c : Cause) (tag : Byte) :
    (s.raiseFault c tag).r2 = s.r2 := rfl

@[simp] theorem State.raiseFault_status (s : State) (c : Cause) (tag : Byte) :
    (s.raiseFault c tag).status = terminatedStatus c tag := rfl

@[simp] theorem State.raiseFault_faultPc (s : State) (c : Cause) (tag : Byte) :
    (s.raiseFault c tag).faultPc = s.pc := rfl

@[simp] theorem State.raiseFault_out (s : State) (c : Cause) (tag : Byte) :
    (s.raiseFault c tag).out = s.out := rfl

@[simp] theorem State.raiseFault_imem (s : State) (c : Cause) (tag : Byte) :
    (s.raiseFault c tag).imem = s.imem := rfl

@[simp] theorem State.raiseFault_len (s : State) (c : Cause) (tag : Byte) :
    (s.raiseFault c tag).len = s.len := rfl

@[simp] theorem State.raiseFault_opcodeMap (s : State) (c : Cause) (tag : Byte) :
    (s.raiseFault c tag).opcodeMap = s.opcodeMap := rfl

@[simp] theorem State.raiseFault_pcw (s : State) (c : Cause) (tag : Byte) :
    (s.raiseFault c tag).pcw = s.pcw := rfl

/-! ### `halt` -/

@[simp] theorem State.halt_pc (s : State) :
    s.halt.pc = s.pc := rfl

@[simp] theorem State.halt_sp (s : State) :
    s.halt.sp = s.sp := rfl

@[simp] theorem State.halt_stk (s : State) :
    s.halt.stk = s.stk := rfl

@[simp] theorem State.halt_r1 (s : State) :
    s.halt.r1 = s.r1 := rfl

@[simp] theorem State.halt_r2 (s : State) :
    s.halt.r2 = s.r2 := rfl

@[simp] theorem State.halt_status (s : State) :
    s.halt.status = 0x0001#16 := rfl

@[simp] theorem State.halt_faultPc (s : State) :
    s.halt.faultPc = s.faultPc := rfl

@[simp] theorem State.halt_out (s : State) :
    s.halt.out = s.out := rfl

@[simp] theorem State.halt_imem (s : State) :
    s.halt.imem = s.imem := rfl

@[simp] theorem State.halt_len (s : State) :
    s.halt.len = s.len := rfl

@[simp] theorem State.halt_opcodeMap (s : State) :
    s.halt.opcodeMap = s.opcodeMap := rfl

@[simp] theorem State.halt_pcw (s : State) :
    s.halt.pcw = s.pcw := rfl

/-! ### `binary` -/

@[simp] theorem State.binary_pc (s : State) (f : Value → Value → Value) :
    (s.binary f).pc = s.pc := rfl

@[simp] theorem State.binary_sp (s : State) (f : Value → Value → Value) :
    (s.binary f).sp = s.sp - 1#9 - 1#9 + 1#9 := rfl

@[simp] theorem State.binary_stk (s : State) (f : Value → Value → Value) :
    (s.binary f).stk = s.stk.set (slotOf (s.sp - 1#9 - 1#9 + 1#9)) (f s.drop.top s.top) := rfl

@[simp] theorem State.binary_r1 (s : State) (f : Value → Value → Value) :
    (s.binary f).r1 = s.r1 := rfl

@[simp] theorem State.binary_r2 (s : State) (f : Value → Value → Value) :
    (s.binary f).r2 = s.r2 := rfl

@[simp] theorem State.binary_status (s : State) (f : Value → Value → Value) :
    (s.binary f).status = s.status := rfl

@[simp] theorem State.binary_faultPc (s : State) (f : Value → Value → Value) :
    (s.binary f).faultPc = s.faultPc := rfl

@[simp] theorem State.binary_out (s : State) (f : Value → Value → Value) :
    (s.binary f).out = s.out := rfl

@[simp] theorem State.binary_imem (s : State) (f : Value → Value → Value) :
    (s.binary f).imem = s.imem := rfl

@[simp] theorem State.binary_len (s : State) (f : Value → Value → Value) :
    (s.binary f).len = s.len := rfl

@[simp] theorem State.binary_opcodeMap (s : State) (f : Value → Value → Value) :
    (s.binary f).opcodeMap = s.opcodeMap := rfl

@[simp] theorem State.binary_pcw (s : State) (f : Value → Value → Value) :
    (s.binary f).pcw = s.pcw := rfl

/-! ### `unary` -/

@[simp] theorem State.unary_pc (s : State) (f : Value → Value) :
    (s.unary f).pc = s.pc := rfl

@[simp] theorem State.unary_sp (s : State) (f : Value → Value) :
    (s.unary f).sp = s.sp - 1#9 + 1#9 := rfl

@[simp] theorem State.unary_stk (s : State) (f : Value → Value) :
    (s.unary f).stk = s.stk.set (slotOf (s.sp - 1#9 + 1#9)) (f s.top) := rfl

@[simp] theorem State.unary_r1 (s : State) (f : Value → Value) :
    (s.unary f).r1 = s.r1 := rfl

@[simp] theorem State.unary_r2 (s : State) (f : Value → Value) :
    (s.unary f).r2 = s.r2 := rfl

@[simp] theorem State.unary_status (s : State) (f : Value → Value) :
    (s.unary f).status = s.status := rfl

@[simp] theorem State.unary_faultPc (s : State) (f : Value → Value) :
    (s.unary f).faultPc = s.faultPc := rfl

@[simp] theorem State.unary_out (s : State) (f : Value → Value) :
    (s.unary f).out = s.out := rfl

@[simp] theorem State.unary_imem (s : State) (f : Value → Value) :
    (s.unary f).imem = s.imem := rfl

@[simp] theorem State.unary_len (s : State) (f : Value → Value) :
    (s.unary f).len = s.len := rfl

@[simp] theorem State.unary_opcodeMap (s : State) (f : Value → Value) :
    (s.unary f).opcodeMap = s.opcodeMap := rfl

@[simp] theorem State.unary_pcw (s : State) (f : Value → Value) :
    (s.unary f).pcw = s.pcw := rfl

/-! ### `popEmit` -/

@[simp] theorem State.popEmit_pc (s : State) :
    s.popEmit.pc = s.pc := rfl

@[simp] theorem State.popEmit_sp (s : State) :
    s.popEmit.sp = s.sp - 1#9 := rfl

@[simp] theorem State.popEmit_stk (s : State) :
    s.popEmit.stk = s.stk := rfl

@[simp] theorem State.popEmit_r1 (s : State) :
    s.popEmit.r1 = s.r1 := rfl

@[simp] theorem State.popEmit_r2 (s : State) :
    s.popEmit.r2 = s.r2 := rfl

@[simp] theorem State.popEmit_status (s : State) :
    s.popEmit.status = s.status := rfl

@[simp] theorem State.popEmit_faultPc (s : State) :
    s.popEmit.faultPc = s.faultPc := rfl

@[simp] theorem State.popEmit_out (s : State) :
    s.popEmit.out = s.out ++ [s.top] := rfl

@[simp] theorem State.popEmit_imem (s : State) :
    s.popEmit.imem = s.imem := rfl

@[simp] theorem State.popEmit_len (s : State) :
    s.popEmit.len = s.len := rfl

@[simp] theorem State.popEmit_opcodeMap (s : State) :
    s.popEmit.opcodeMap = s.opcodeMap := rfl

@[simp] theorem State.popEmit_pcw (s : State) :
    s.popEmit.pcw = s.pcw := rfl

/-! ### `hostReset` -/

@[simp] theorem State.hostReset_pc (s : State) (fill : Stack) :
    (s.hostReset fill).pc = 0 := rfl

@[simp] theorem State.hostReset_sp (s : State) (fill : Stack) :
    (s.hostReset fill).sp = 0x1FF#9 := rfl

@[simp] theorem State.hostReset_stk (s : State) (fill : Stack) :
    (s.hostReset fill).stk = fill := rfl

@[simp] theorem State.hostReset_r1 (s : State) (fill : Stack) :
    (s.hostReset fill).r1 = 0#64 := rfl

@[simp] theorem State.hostReset_r2 (s : State) (fill : Stack) :
    (s.hostReset fill).r2 = 0#64 := rfl

@[simp] theorem State.hostReset_status (s : State) (fill : Stack) :
    (s.hostReset fill).status = 0#16 := rfl

@[simp] theorem State.hostReset_faultPc (s : State) (fill : Stack) :
    (s.hostReset fill).faultPc = 0 := rfl

@[simp] theorem State.hostReset_out (s : State) (fill : Stack) :
    (s.hostReset fill).out = [] := rfl

@[simp] theorem State.hostReset_imem (s : State) (fill : Stack) :
    (s.hostReset fill).imem = s.imem := rfl

@[simp] theorem State.hostReset_len (s : State) (fill : Stack) :
    (s.hostReset fill).len = s.len := rfl

@[simp] theorem State.hostReset_opcodeMap (s : State) (fill : Stack) :
    (s.hostReset fill).opcodeMap = s.opcodeMap := rfl

@[simp] theorem State.hostReset_pcw (s : State) (fill : Stack) :
    (s.hostReset fill).pcw = s.pcw := rfl

/-! ### `launch` -/

@[simp] theorem State.launch_pc (m : OpcodeMap) (w : Nat) (stream : List Byte) (fill : Stack) :
    (State.launch m w stream fill).pc = 0 := rfl

@[simp] theorem State.launch_sp (m : OpcodeMap) (w : Nat) (stream : List Byte) (fill : Stack) :
    (State.launch m w stream fill).sp = 0x1FF#9 := rfl

@[simp] theorem State.launch_stk (m : OpcodeMap) (w : Nat) (stream : List Byte) (fill : Stack) :
    (State.launch m w stream fill).stk = fill := rfl

@[simp] theorem State.launch_r1 (m : OpcodeMap) (w : Nat) (stream : List Byte) (fill : Stack) :
    (State.launch m w stream fill).r1 = 0#64 := rfl

@[simp] theorem State.launch_r2 (m : OpcodeMap) (w : Nat) (stream : List Byte) (fill : Stack) :
    (State.launch m w stream fill).r2 = 0#64 := rfl

@[simp] theorem State.launch_status (m : OpcodeMap) (w : Nat) (stream : List Byte) (fill : Stack) :
    (State.launch m w stream fill).status = 0#16 := rfl

@[simp] theorem State.launch_faultPc (m : OpcodeMap) (w : Nat) (stream : List Byte) (fill : Stack) :
    (State.launch m w stream fill).faultPc = 0 := rfl

@[simp] theorem State.launch_out (m : OpcodeMap) (w : Nat) (stream : List Byte) (fill : Stack) :
    (State.launch m w stream fill).out = [] := rfl

@[simp] theorem State.launch_imem (m : OpcodeMap) (w : Nat) (stream : List Byte) (fill : Stack) :
    (State.launch m w stream fill).imem = Memory.writeBytes [] 0 stream := rfl

@[simp] theorem State.launch_len (m : OpcodeMap) (w : Nat) (stream : List Byte) (fill : Stack) :
    (State.launch m w stream fill).len = stream.length := rfl

@[simp] theorem State.launch_opcodeMap (m : OpcodeMap) (w : Nat) (stream : List Byte) (fill : Stack) :
    (State.launch m w stream fill).opcodeMap = m := rfl

@[simp] theorem State.launch_pcw (m : OpcodeMap) (w : Nat) (stream : List Byte) (fill : Stack) :
    (State.launch m w stream fill).pcw = w := rfl

/-! ### `withFetchWord` -/

@[simp] theorem State.withFetchWord_pc (s : State) (n w : Nat) :
    (s.withFetchWord n w).pc = s.pc := rfl

@[simp] theorem State.withFetchWord_sp (s : State) (n w : Nat) :
    (s.withFetchWord n w).sp = s.sp := rfl

@[simp] theorem State.withFetchWord_stk (s : State) (n w : Nat) :
    (s.withFetchWord n w).stk = s.stk := rfl

@[simp] theorem State.withFetchWord_r1 (s : State) (n w : Nat) :
    (s.withFetchWord n w).r1 = s.r1 := rfl

@[simp] theorem State.withFetchWord_r2 (s : State) (n w : Nat) :
    (s.withFetchWord n w).r2 = s.r2 := rfl

@[simp] theorem State.withFetchWord_status (s : State) (n w : Nat) :
    (s.withFetchWord n w).status = s.status := rfl

@[simp] theorem State.withFetchWord_faultPc (s : State) (n w : Nat) :
    (s.withFetchWord n w).faultPc = s.faultPc := rfl

@[simp] theorem State.withFetchWord_out (s : State) (n w : Nat) :
    (s.withFetchWord n w).out = s.out := rfl

@[simp] theorem State.withFetchWord_imem (s : State) (n w : Nat) :
    (s.withFetchWord n w).imem = Memory.writeBytes s.imem s.pc (tableBytes n w) := rfl

@[simp] theorem State.withFetchWord_len (s : State) (n w : Nat) :
    (s.withFetchWord n w).len = max s.len (s.pc + maxInstrBytes) := rfl

@[simp] theorem State.withFetchWord_opcodeMap (s : State) (n w : Nat) :
    (s.withFetchWord n w).opcodeMap = s.opcodeMap := rfl

@[simp] theorem State.withFetchWord_pcw (s : State) (n w : Nat) :
    (s.withFetchWord n w).pcw = s.pcw := rfl

/-! ### `writeReg` and `popReg` -/

@[simp] theorem State.writeReg_pc (s : State) (v : Value) (k : Reg) :
    (s.writeReg v k).pc = s.pc := by
  cases k <;> rfl

@[simp] theorem State.writeReg_sp (s : State) (v : Value) (k : Reg) :
    (s.writeReg v k).sp = s.sp := by
  cases k <;> rfl

@[simp] theorem State.writeReg_stk (s : State) (v : Value) (k : Reg) :
    (s.writeReg v k).stk = s.stk := by
  cases k <;> rfl

@[simp] theorem State.writeReg_r1 (s : State) (v : Value) (k : Reg) :
    (s.writeReg v k).r1 = if k = .r1 then v else s.r1 := by
  cases k <;> rfl

@[simp] theorem State.writeReg_r2 (s : State) (v : Value) (k : Reg) :
    (s.writeReg v k).r2 = if k = .r2 then v else s.r2 := by
  cases k <;> rfl

@[simp] theorem State.writeReg_status (s : State) (v : Value) (k : Reg) :
    (s.writeReg v k).status = s.status := by
  cases k <;> rfl

@[simp] theorem State.writeReg_faultPc (s : State) (v : Value) (k : Reg) :
    (s.writeReg v k).faultPc = s.faultPc := by
  cases k <;> rfl

@[simp] theorem State.writeReg_out (s : State) (v : Value) (k : Reg) :
    (s.writeReg v k).out = s.out := by
  cases k <;> rfl

@[simp] theorem State.writeReg_imem (s : State) (v : Value) (k : Reg) :
    (s.writeReg v k).imem = s.imem := by
  cases k <;> rfl

@[simp] theorem State.writeReg_len (s : State) (v : Value) (k : Reg) :
    (s.writeReg v k).len = s.len := by
  cases k <;> rfl

@[simp] theorem State.writeReg_opcodeMap (s : State) (v : Value) (k : Reg) :
    (s.writeReg v k).opcodeMap = s.opcodeMap := by
  cases k <;> rfl

@[simp] theorem State.writeReg_pcw (s : State) (v : Value) (k : Reg) :
    (s.writeReg v k).pcw = s.pcw := by
  cases k <;> rfl

@[simp] theorem State.popReg_pc (s : State) (k : Reg) :
    (s.popReg k).pc = s.pc := by
  cases k <;> rfl

@[simp] theorem State.popReg_sp (s : State) (k : Reg) :
    (s.popReg k).sp = s.sp - 1#9 := by
  cases k <;> rfl

@[simp] theorem State.popReg_stk (s : State) (k : Reg) :
    (s.popReg k).stk = s.stk := by
  cases k <;> rfl

@[simp] theorem State.popReg_r1 (s : State) (k : Reg) :
    (s.popReg k).r1 = if k = .r1 then s.top else s.r1 := by
  cases k <;> rfl

@[simp] theorem State.popReg_r2 (s : State) (k : Reg) :
    (s.popReg k).r2 = if k = .r2 then s.top else s.r2 := by
  cases k <;> rfl

@[simp] theorem State.popReg_status (s : State) (k : Reg) :
    (s.popReg k).status = s.status := by
  cases k <;> rfl

@[simp] theorem State.popReg_faultPc (s : State) (k : Reg) :
    (s.popReg k).faultPc = s.faultPc := by
  cases k <;> rfl

@[simp] theorem State.popReg_out (s : State) (k : Reg) :
    (s.popReg k).out = s.out := by
  cases k <;> rfl

@[simp] theorem State.popReg_imem (s : State) (k : Reg) :
    (s.popReg k).imem = s.imem := by
  cases k <;> rfl

@[simp] theorem State.popReg_len (s : State) (k : Reg) :
    (s.popReg k).len = s.len := by
  cases k <;> rfl

@[simp] theorem State.popReg_opcodeMap (s : State) (k : Reg) :
    (s.popReg k).opcodeMap = s.opcodeMap := by
  cases k <;> rfl

@[simp] theorem State.popReg_pcw (s : State) (k : Reg) :
    (s.popReg k).pcw = s.pcw := by
  cases k <;> rfl

/-! ### What reads a state -/

@[simp] theorem State.slot_setSlot (s : State) (i j : Fin 256) (v : Value) :
    (s.setSlot i v).slot j = if j = i then v else s.slot j := by
  simp only [State.slot, State.setSlot, Fin.getElem_fin, Vector.getElem_set, Fin.ext_iff]
  split <;> split <;> first | rfl | omega

@[simp] theorem State.slot_push (s : State) (v : Value) (j : Fin 256) :
    (s.push v).slot j = if j = slotOf (s.sp + 1#9) then v else s.slot j :=
  State.slot_setSlot _ _ _ _

@[simp] theorem State.slot_drop (s : State) (j : Fin 256) : s.drop.slot j = s.slot j := rfl

@[simp] theorem State.slot_advance (s : State) (o : Opcode) (j : Fin 256) : (s.advance o).slot j = s.slot j := rfl

@[simp] theorem State.slot_emit (s : State) (v : Value) (j : Fin 256) : (s.emit v).slot j = s.slot j := rfl

@[simp] theorem State.slot_writeReg (s : State) (v : Value) (k : Reg) (j : Fin 256) :
    (s.writeReg v k).slot j = s.slot j := by
  cases k <;> rfl

@[simp] theorem State.slot_raiseFault (s : State) (c : Cause) (tag : Byte) (j : Fin 256) :
    (s.raiseFault c tag).slot j = s.slot j := rfl

@[simp] theorem State.slot_halt (s : State) (j : Fin 256) : s.halt.slot j = s.slot j := rfl

@[simp] theorem State.readReg_writeReg (s : State) (v : Value) (k l : Reg) :
    (s.writeReg v k).readReg l = if l = k then v else s.readReg l := by
  cases k <;> cases l <;> rfl

end Sys2Proof.Machine
end

