-- ==== Sys2Proof/Laws/Memory.lean ====
section
/-! SUPPORT. The laws of the bytes of the instruction stream: every operation keeps the canonical form, a read after a write, and
equal contents are equal data. -/

namespace Sys2Proof.Machine

open Sys2Proof

/-! ### The canonical form -/

@[simp] theorem Memory.wfFrom_nil (lo : Nat) : Memory.wfFrom lo [] = true := rfl

theorem Memory.wfFrom_cons {lo a : Nat} {b : Byte} {m : Memory} :
    Memory.wfFrom lo ((a, b) :: m) = true ↔ lo ≤ a ∧ b ≠ unlistedByte ∧ Memory.wfFrom (a + 1) m = true := by
  simp [Memory.wfFrom, and_assoc]

theorem Memory.wfFrom_mono {lo lo' : Nat} {m : Memory} (h : lo' ≤ lo) (hm : Memory.wfFrom lo m = true) :
    Memory.wfFrom lo' m = true := by
  cases m with
  | nil => rfl
  | cons c m =>
    obtain ⟨a, b⟩ := c
    rw [Memory.wfFrom_cons] at hm ⊢
    exact ⟨by omega, hm.2⟩

theorem Memory.wfFrom_consByte {lo a : Nat} {b : Byte} {m : Memory} (h : lo ≤ a)
    (hm : Memory.wfFrom (a + 1) m = true) : Memory.wfFrom lo (Memory.cons a b m) = true := by
  unfold Memory.cons
  split
  · exact Memory.wfFrom_mono (by omega) hm
  · exact Memory.wfFrom_cons.2 ⟨h, by assumption, hm⟩

theorem Memory.wfFrom_write {lo : Nat} {m : Memory} (x : Nat) (v : Byte) (hx : lo ≤ x)
    (hm : Memory.wfFrom lo m = true) : Memory.wfFrom lo (Memory.write m x v) = true := by
  induction m generalizing lo with
  | nil => exact Memory.wfFrom_consByte hx rfl
  | cons c m ih =>
    obtain ⟨a, b⟩ := c
    rw [Memory.wfFrom_cons] at hm
    simp only [Memory.write]
    split
    · exact Memory.wfFrom_consByte hx (Memory.wfFrom_cons.2 ⟨by omega, hm.2⟩)
    · split
      · subst x; exact Memory.wfFrom_consByte hx hm.2.2
      · exact Memory.wfFrom_cons.2 ⟨hm.1, hm.2.1, ih (by omega) hm.2.2⟩

/-- A write keeps the canonical form. -/
theorem Memory.wf_write {m : Memory} (x : Nat) (v : Byte) (hm : Memory.wf m = true) :
    Memory.wf (Memory.write m x v) = true :=
  Memory.wfFrom_write x v (Nat.zero_le x) hm

/-- Writing a list of bytes keeps the canonical form. -/
theorem Memory.wf_writeBytes {m : Memory} (a : Nat) (bs : List Byte) (hm : Memory.wf m = true) :
    Memory.wf (Memory.writeBytes m a bs) = true := by
  induction bs generalizing m a with
  | nil => exact hm
  | cons b bs ih => exact ih (a + 1) (Memory.wf_write a b hm)

theorem State.reset_imem_wf : Memory.wf State.reset.imem = true := rfl

/-! ### Reading -/

theorem Memory.read_eq_unlisted_of_lt {lo : Nat} {m : Memory} (hm : Memory.wfFrom lo m = true) {x : Nat} (hx : x < lo) :
    Memory.read m x = unlistedByte := by
  induction m generalizing lo with
  | nil => rfl
  | cons c m ih =>
    obtain ⟨a, b⟩ := c
    rw [Memory.wfFrom_cons] at hm
    rw [Memory.read, if_neg (by omega)]
    exact ih hm.2.2 (by omega)

theorem Memory.read_cons {a : Nat} {b : Byte} {m : Memory} (hm : Memory.wfFrom (a + 1) m = true) (x : Nat) :
    Memory.read (Memory.cons a b m) x = if x = a then b else Memory.read m x := by
  unfold Memory.cons
  split
  · split
    · subst x b; exact Memory.read_eq_unlisted_of_lt hm (by omega)
    · rfl
  · rfl

theorem Memory.read_write_from {lo : Nat} {m : Memory} (hm : Memory.wfFrom lo m = true) (x : Nat) (v : Byte) (y : Nat) :
    Memory.read (Memory.write m x v) y = if y = x then v else Memory.read m y := by
  induction m generalizing lo with
  | nil => exact Memory.read_cons rfl y
  | cons c m ih =>
    obtain ⟨a, b⟩ := c
    rw [Memory.wfFrom_cons] at hm
    simp only [Memory.write]
    split
    · exact Memory.read_cons (Memory.wfFrom_cons.2 ⟨by omega, hm.2⟩) y
    · split
      · subst x
        rw [Memory.read_cons hm.2.2]
        split <;> simp_all [Memory.read]
      · simp only [Memory.read, ih hm.2.2]
        split <;> split <;> first | rfl | omega

/-- A read after a write: the value written at its address, and what was there at every other. -/
theorem Memory.read_write {m : Memory} (hm : Memory.wf m = true) (x : Nat) (v : Byte) (y : Nat) :
    Memory.read (Memory.write m x v) y = if y = x then v else Memory.read m y :=
  Memory.read_write_from hm x v y

/-- Reading after a list of bytes was written at `a`. -/
theorem Memory.read_writeBytes {m : Memory} (hm : Memory.wf m = true) (a : Nat) (bs : List Byte) (y : Nat) :
    Memory.read (Memory.writeBytes m a bs) y =
      if h : a ≤ y ∧ y - a < bs.length then bs[y - a]'h.2 else Memory.read m y := by
  induction bs generalizing m a with
  | nil => simp [Memory.writeBytes]
  | cons b bs ih =>
    rw [Memory.writeBytes, ih (Memory.wf_write a b hm), Memory.read_write hm]
    by_cases hy : y = a
    · subst y; rw [dif_neg (by omega), if_pos rfl, dif_pos (by simp)]; simp
    · by_cases hr : a + 1 ≤ y ∧ y - (a + 1) < bs.length
      · rw [dif_pos hr, dif_pos (by simp; omega)]
        have : y - a = (y - (a + 1)) + 1 := by omega
        simp [this]
      · rw [dif_neg hr, if_neg hy, dif_neg (by simp; omega)]

@[simp] theorem Memory.length_readBytes (m : Memory) (a n : Nat) : (Memory.readBytes m a n).length = n := by
  induction n generalizing a with
  | zero => rfl
  | succ n ih => simp [Memory.readBytes, ih]

theorem Memory.getElem_readBytes (m : Memory) (a n k : Nat) (h : k < (Memory.readBytes m a n).length) :
    (Memory.readBytes m a n)[k] = Memory.read m (a + k) := by
  induction n generalizing a k with
  | zero => simp [Memory.readBytes] at h
  | succ n ih =>
    cases k with
    | zero => simp [Memory.readBytes]
    | succ k =>
      simp only [Memory.readBytes, List.getElem_cons_succ]
      rw [ih]
      congr 1
      omega

/-! ### Which addresses are listed -/

theorem Memory.mem_write {m : Memory} {x : Nat} {v : Byte} {c : Host.Cell} (h : c ∈ Memory.write m x v) :
    c.1 = x ∨ c ∈ m := by
  induction m with
  | nil =>
    simp only [Memory.write, Memory.cons] at h
    split at h <;> simp_all
  | cons d m ih =>
    obtain ⟨a, b⟩ := d
    simp only [Memory.write, Memory.cons] at h
    split at h
    · split at h
      · exact Or.inr h
      · rcases List.mem_cons.1 h with rfl | h
        · exact Or.inl rfl
        · exact Or.inr h
    · split at h
      · split at h
        · exact Or.inr (List.mem_cons_of_mem _ h)
        · rcases List.mem_cons.1 h with rfl | h
          · exact Or.inl rfl
          · exact Or.inr (List.mem_cons_of_mem _ h)
      · rcases List.mem_cons.1 h with rfl | h
        · exact Or.inr (List.mem_cons_self ..)
        · exact (ih h).imp id (List.mem_cons_of_mem _)

theorem Memory.mem_writeBytes {m : Memory} {a : Nat} {bs : List Byte} {c : Host.Cell}
    (h : c ∈ Memory.writeBytes m a bs) : (a ≤ c.1 ∧ c.1 < a + bs.length) ∨ c ∈ m := by
  induction bs generalizing m a with
  | nil => exact Or.inr h
  | cons b bs ih =>
    rcases ih h with h | h
    · exact Or.inl (by simp only [List.length_cons]; omega)
    · rcases Memory.mem_write h with h | h
      · exact Or.inl (by simp only [List.length_cons]; omega)
      · exact Or.inr h

/-- Two memories in canonical form that read the same at every address are the same list. -/
theorem Memory.eq_of_read_eq {lo : Nat} {m m' : Memory} (hm : Memory.wfFrom lo m = true)
    (hm' : Memory.wfFrom lo m' = true) (h : ∀ x, Memory.read m x = Memory.read m' x) : m = m' := by
  induction m generalizing lo m' with
  | nil =>
    cases m' with
    | nil => rfl
    | cons c' m' =>
      obtain ⟨a', b'⟩ := c'
      rw [Memory.wfFrom_cons] at hm'
      exact absurd (by simpa [Memory.read] using h a') (Ne.symm hm'.2.1)
  | cons c m ih =>
    obtain ⟨a, b⟩ := c
    rw [Memory.wfFrom_cons] at hm
    cases m' with
    | nil => exact absurd (by simpa [Memory.read] using h a) hm.2.1
    | cons c' m' =>
      obtain ⟨a', b'⟩ := c'
      rw [Memory.wfFrom_cons] at hm'
      have haa : a = a' := by
        rcases Nat.lt_trichotomy a a' with hlt | heq | hgt
        · have := h a
          rw [Memory.read, if_pos rfl, Memory.read_eq_unlisted_of_lt (lo := a') (Memory.wfFrom_cons.2 ⟨le_refl _, hm'.2⟩) hlt] at this
          exact absurd this hm.2.1
        · exact heq
        · have := h a'
          rw [Memory.read_eq_unlisted_of_lt (lo := a) (Memory.wfFrom_cons.2 ⟨le_refl _, hm.2⟩) hgt, Memory.read, if_pos rfl] at this
          exact absurd this.symm hm'.2.1
      subst a'
      have hb : b = b' := by simpa [Memory.read] using h a
      subst b'
      have : m = m' := by
        refine ih hm.2.2 hm'.2.2 fun x => ?_
        by_cases hx : x = a
        · subst x
          rw [Memory.read_eq_unlisted_of_lt hm.2.2 (by omega), Memory.read_eq_unlisted_of_lt hm'.2.2 (by omega)]
        · simpa [Memory.read, hx] using h x
      rw [this]

end Sys2Proof.Machine
end

