-- ==== Sys2Proof/Laws/Ops.lean ====
section
/-! SUPPORT. What each shared operation can do, said once: STATUS, the stack pointer and its slots, the depth check, and the shape
every instruction's meaning has. -/

namespace Sys2Proof.Machine

open Sys2Proof

/-! ### STATUS -/

@[simp] theorem terminatedStatus_done (c : Cause) (tag : Byte) : (terminatedStatus c tag).getLsbD 0 = true := by
  simp only [terminatedStatus, BitVec.getLsbD_append]
  rfl

@[simp] theorem terminatedStatus_cause (c : Cause) (tag : Byte) : (terminatedStatus c tag).extractLsb' 1 3 = c.code := by
  refine BitVec.eq_of_getLsbD_eq fun k hk => ?_
  simp only [terminatedStatus, BitVec.getLsbD_extractLsb', BitVec.getLsbD_append, hk, decide_true, Bool.true_and]
  rw [if_neg (by omega), if_pos (by omega), show 1 + k - 1 = k by omega]

@[simp] theorem terminatedStatus_reserved (c : Cause) (tag : Byte) : (terminatedStatus c tag).extractLsb' 4 4 = 0#4 := by
  refine BitVec.eq_of_getLsbD_eq fun k hk => ?_
  simp only [terminatedStatus, BitVec.getLsbD_extractLsb', BitVec.getLsbD_append, hk, decide_true, Bool.true_and]
  rw [if_neg (by omega), if_neg (by omega), if_pos (by omega)]
  simp

@[simp] theorem terminatedStatus_tag (c : Cause) (tag : Byte) : (terminatedStatus c tag).extractLsb' 8 8 = tag := by
  refine BitVec.eq_of_getLsbD_eq fun k hk => ?_
  simp only [terminatedStatus, BitVec.getLsbD_extractLsb', BitVec.getLsbD_append, hk, decide_true, Bool.true_and]
  rw [if_neg (by omega), if_neg (by omega), if_neg (by omega), show 8 + k - 1 - 3 - 4 = k by omega]

@[simp] theorem State.raiseFault_done (s : State) (c : Cause) (tag : Byte) : (s.raiseFault c tag).done = true :=
  terminatedStatus_done c tag

@[simp] theorem State.raiseFault_cause (s : State) (c : Cause) (tag : Byte) : (s.raiseFault c tag).cause = c.code :=
  terminatedStatus_cause c tag

@[simp] theorem State.raiseFault_statusReserved (s : State) (c : Cause) (tag : Byte) :
    (s.raiseFault c tag).statusReserved = 0#4 :=
  terminatedStatus_reserved c tag

@[simp] theorem State.raiseFault_faultTag (s : State) (c : Cause) (tag : Byte) : (s.raiseFault c tag).faultTag = tag :=
  terminatedStatus_tag c tag

/-- The fields of STATUS are read off STATUS alone. -/
theorem State.fields_of_status {s t : State} (h : s.status = t.status) :
    s.done = t.done ∧ s.cause = t.cause ∧ s.statusReserved = t.statusReserved ∧ s.faultTag = t.faultTag := by
  simp only [State.done, State.cause, State.statusReserved, State.faultTag, h, and_self]

/-- A machine whose STATUS reads 0 is running, with every field of STATUS 0. -/
theorem State.fields_of_status_zero {s : State} (h : s.status = 0#16) :
    s.done = false ∧ s.cause = 0#3 ∧ s.statusReserved = 0#4 ∧ s.faultTag = 0#8 := by
  simp [State.done, State.cause, State.statusReserved, State.faultTag, h]

theorem Cause.code_toNat_le (c : Cause) : c.code.toNat ≤ 6 := by cases c <;> decide

theorem Cause.code_eq_zero {c : Cause} : c.code = 0#3 ↔ c = .haltOk := by cases c <;> decide

/-! ### The stack pointer, the depth and the slots -/

/-- The reading of a 9-bit two's complement number as an unsigned one. -/
theorem sp_toInt (sp : BitVec 9) :
    (sp.toNat ≤ 255 ∧ sp.toInt = sp.toNat) ∨ (256 ≤ sp.toNat ∧ sp.toNat ≤ 511 ∧ sp.toInt = sp.toNat - 512) := by
  have h := BitVec.toInt_eq_toNat_cond sp
  have := sp.isLt
  split at h <;> omega

theorem State.depth_toNat (s : State) : s.depth = (s.sp.toNat + 1) % 512 := by
  simp [State.depth, BitVec.toNat_add]

theorem State.depth_lt (s : State) : s.depth < 512 := by rw [State.depth_toNat]; omega

/-- `-1 <= SP <= 255` and a depth of at most 256 are one condition (10_state.md R27). -/
theorem State.spInRange_iff (s : State) : s.spInRange ↔ s.depth ≤ 256 := by
  have := s.sp.isLt
  rw [State.spInRange, State.depth_toNat]
  rcases sp_toInt s.sp with h | h <;> omega

/-- `depth = SP + 1` (10_state.md R27). -/
theorem State.depth_eq {s : State} (h : s.spInRange) : (s.depth : Int) = s.sp.toInt + 1 := by
  have := s.sp.isLt
  have h' := h
  rw [State.spInRange] at h'
  rw [State.depth_toNat]
  rcases sp_toInt s.sp with h | h <;> omega

theorem sp_add_toInt {sp : BitVec 9} (h : -1 ≤ sp.toInt) (h' : sp.toInt ≤ 254) : (sp + 1#9).toInt = sp.toInt + 1 := by
  have e : (sp + 1#9).toNat = (sp.toNat + 1) % 512 := by simp [BitVec.toNat_add]
  have := sp.isLt
  rcases sp_toInt sp with h₁ | h₁ <;> rcases sp_toInt (sp + 1#9) with h₂ | h₂ <;> omega

theorem sp_sub_toInt {sp : BitVec 9} (h : 0 ≤ sp.toInt) : (sp - 1#9).toInt = sp.toInt - 1 := by
  have e : (sp - 1#9).toNat = (sp.toNat + 511) % 512 := by simp [BitVec.toNat_sub]; omega
  have := sp.isLt
  rcases sp_toInt sp with h₁ | h₁ <;> rcases sp_toInt (sp - 1#9) with h₂ | h₂ <;> omega

@[simp] theorem sp_sub_add (sp : BitVec 9) : sp - 1#9 + 1#9 = sp := by bv_omega

theorem slotOf_val (sp : BitVec 9) : (slotOf sp).val = sp.toNat % 256 := rfl

theorem slotOf_eq_iff {sp : BitVec 9} (h : 0 ≤ sp.toInt) (j : Fin 256) : j = slotOf sp ↔ (j.val : Int) = sp.toInt := by
  have := sp.isLt
  rw [Fin.ext_iff, slotOf_val]
  rcases sp_toInt sp with h₁ | h₁ <;> omega

theorem State.stackAt_eq {s : State} {sp : BitVec 9} (h : 0 ≤ sp.toInt) : s.stackAt sp.toInt = s.slot (slotOf sp) := by
  have := sp.isLt
  rw [State.stackAt]
  congr 1
  apply Fin.ext
  rw [slotOf_val]
  show sp.toInt.toNat % 256 = _
  rcases sp_toInt sp with h₁ | h₁ <;> omega

/-- `Top()` is `STK[SP]` (20_memory.md R58). -/
theorem State.top_eq {s : State} (h : 0 ≤ s.sp.toInt) : s.top = s.stackAt s.sp.toInt := (State.stackAt_eq h).symm

/-- `Top()` after a `Pop()` is `STK[SP - 1]`. -/
theorem State.top_drop_eq {s : State} (h : 1 ≤ s.sp.toInt) : s.drop.top = s.stackAt (s.sp.toInt - 1) := by
  have h1 := sp_sub_toInt (sp := s.sp) (by omega)
  rw [← h1, State.stackAt_eq (by omega)]
  rfl

@[simp] theorem State.depth_setSlot (s : State) (i : Fin 256) (v : Value) : (s.setSlot i v).depth = s.depth := rfl

theorem State.depth_push {s : State} (v : Value) (h : s.depth < 511) : (s.push v).depth = s.depth + 1 := by
  have e₁ := State.depth_toNat s
  have e₂ := State.depth_toNat (s.push v)
  rw [State.push_sp, BitVec.toNat_add] at e₂
  simp only [BitVec.toNat_ofNat] at e₂
  have := s.sp.isLt
  omega

theorem State.depth_drop {s : State} (h : 1 ≤ s.depth) : s.drop.depth + 1 = s.depth := by
  have e₁ := State.depth_toNat s
  have e₂ : s.drop.depth = s.sp.toNat := congrArg BitVec.toNat (sp_sub_add s.sp)
  have := s.sp.isLt
  omega

/-! ### Two pieces of one instruction -/

@[simp] theorem State.drop_push_top (s : State) (v : Value) : (s.push v).top = v := by
  simp [State.top]

@[simp] theorem State.drop_push_drop (s : State) (v : Value) :
    (s.push v).drop = s.setSlot (slotOf (s.sp + 1#9)) v := by
  have : s.sp + 1#9 - 1#9 = s.sp := by bv_omega
  simp only [State.push, State.drop, State.setSlot, this]

/-! ### The depth check and the shape of every meaning -/

/-- What the depth checks can do (40_control.md R110): one of the two faults, or the instruction's own effect. -/
theorem State.checked_cases (s : State) (o : Opcode) (execute : State → State) :
    (s.depth < (stackEffect o).pops ∧ s.checked o execute = s.raiseFault .stackUnderflow (s.tagOf o)) ∨
    ((stackEffect o).pops ≤ s.depth ∧ 256 < s.depth - (stackEffect o).pops + (stackEffect o).pushes ∧
      s.checked o execute = s.raiseFault .stackOverflow (s.tagOf o)) ∨
    ((stackEffect o).pops ≤ s.depth ∧ s.depth - (stackEffect o).pops + (stackEffect o).pushes ≤ 256 ∧
      s.checked o execute = execute s) := by
  unfold State.checked
  by_cases h₁ : s.depth < (stackEffect o).pops
  · exact .inl ⟨h₁, if_pos h₁⟩
  · rw [if_neg h₁]
    by_cases h₂ : Config.stackCapacity < s.depth - (stackEffect o).pops + (stackEffect o).pushes
    · exact .inr (.inl ⟨by omega, h₂, if_pos h₂⟩)
    · exact .inr (.inr ⟨by omega, by simpa using h₂, if_neg h₂⟩)

/-- Where the checks pass, the instruction's own effect. -/
theorem State.checked_pass {s : State} {o : Opcode} {execute : State → State} (h₁ : (stackEffect o).pops ≤ s.depth)
    (h₂ : s.depth - (stackEffect o).pops + (stackEffect o).pushes ≤ 256) : s.checked o execute = execute s := by
  unfold State.checked
  rw [if_neg (by omega), if_neg (by simpa using h₂)]

theorem State.checked_underflow {s : State} {o : Opcode} {execute : State → State} (h : s.depth < (stackEffect o).pops) :
    s.checked o execute = s.raiseFault .stackUnderflow (s.tagOf o) := by
  unfold State.checked
  rw [if_pos h]

theorem State.checked_overflow {s : State} {o : Opcode} {execute : State → State} (h₁ : (stackEffect o).pops ≤ s.depth)
    (h₂ : 256 < s.depth - (stackEffect o).pops + (stackEffect o).pushes) :
    s.checked o execute = s.raiseFault .stackOverflow (s.tagOf o) := by
  unfold State.checked
  rw [if_neg (by omega), if_pos h₂]

/-- `Execute_i` of 40_control.md R110 for each instruction: what it does once the checks have passed. -/
def execute : Instr → State → State
  | .halt,        s => (s.advance .halt).halt
  | .nop,         s => s.advance .nop
  | .pushM1,      s => (s.push constM1).advance .pushM1
  | .push0,       s => (s.push const0).advance .push0
  | .push1,       s => (s.push const1).advance .push1
  | .push2,       s => (s.push const2).advance .push2
  | .pushConst v, s => (s.push v).advance .pushConst
  | .add,         s => (s.binary fadd64).advance .add
  | .sub,         s => (s.binary fsub64).advance .sub
  | .mul,         s => (s.binary fmul64).advance .mul
  | .div,         s => if isZero s.top then s.raiseFault .divisionByZero (s.tagOf .div) else (s.binary fdiv64).advance .div
  | .neg,         s => (s.unary fneg64).advance .neg
  | .loadR1,      s => (s.push s.r1).advance .loadR1
  | .loadR2,      s => (s.push s.r2).advance .loadR2
  | .storeR1,     s => (s.popReg .r1).advance .storeR1
  | .storeR2,     s => (s.popReg .r2).advance .storeR2
  | .print,       s => s.popEmit.advance .print

/-- What `Execute_i` leaves alone on every path: the launch inputs (10_state.md R35). -/
theorem execute_inputs (i : Instr) (s : State) :
    (execute i s).imem = s.imem ∧ (execute i s).len = s.len ∧ (execute i s).opcodeMap = s.opcodeMap ∧
    (execute i s).pcw = s.pcw := by
  cases i
  case div => simp only [execute]; split <;> simp
  all_goals simp [execute]

/-- What a completing instruction does to STATUS, FAULT_PC and PC: only HALT writes STATUS, and PC moves past the instruction
(10_state.md R22, R30). -/
theorem execute_control {i : Instr} {s : State} (hz : i = .div → isZero s.top = false) :
    (execute i s).status = (if i = .halt then 0x0001#16 else s.status) ∧ (execute i s).faultPc = s.faultPc ∧
    (execute i s).pc = s.pc + i.opcode.length := by
  cases i <;> simp [execute, Instr.opcode, hz]

/-- A completing instruction changes the depth by its pushes less its pops (40_control.md R112). -/
theorem execute_depth {i : Instr} {s : State} (h₁ : (stackEffect i.opcode).pops ≤ s.depth)
    (h₂ : s.depth - (stackEffect i.opcode).pops + (stackEffect i.opcode).pushes ≤ 256)
    (hz : i = .div → isZero s.top = false) :
    (execute i s).depth + (stackEffect i.opcode).pops = s.depth + (stackEffect i.opcode).pushes := by
  have e := State.depth_toNat s
  have e' := State.depth_toNat (execute i s)
  have := s.sp.isLt
  cases i <;> simp [stackEffect, Instr.opcode] at * <;>
    simp [execute, BitVec.toNat_add, BitVec.toNat_sub, hz] at * <;> omega

/-- Every meaning is the depth check, then the instruction's own effect; it always answers a next state. -/
theorem exec_eq (i : Instr) (s : State) : exec i s = .next (s.checked i.opcode (execute i)) := by
  cases i <;> rfl

/-- What executing an instruction can do, once and for all: a depth fault, a zero divisor's fault, or completion. -/
theorem exec_cases {i : Instr} {s t : State} (h : exec i s = .next t) :
    (s.depth < (stackEffect i.opcode).pops ∧ t = s.raiseFault .stackUnderflow (s.tagOf i.opcode)) ∨
    ((stackEffect i.opcode).pops ≤ s.depth ∧
      256 < s.depth - (stackEffect i.opcode).pops + (stackEffect i.opcode).pushes ∧
      t = s.raiseFault .stackOverflow (s.tagOf i.opcode)) ∨
    ((stackEffect i.opcode).pops ≤ s.depth ∧
      s.depth - (stackEffect i.opcode).pops + (stackEffect i.opcode).pushes ≤ 256 ∧
      i = .div ∧ isZero s.top = true ∧ t = s.raiseFault .divisionByZero (s.tagOf .div)) ∨
    ((stackEffect i.opcode).pops ≤ s.depth ∧
      s.depth - (stackEffect i.opcode).pops + (stackEffect i.opcode).pushes ≤ 256 ∧
      (i = .div → isZero s.top = false) ∧ t = execute i s) := by
  rw [exec_eq, Host.Outcome.next.injEq] at h
  subst h
  rcases State.checked_cases s i.opcode (execute i) with h | h | ⟨h₁, h₂, h₃⟩
  · exact .inl h
  · exact .inr (.inl h)
  · by_cases hz : i = .div ∧ isZero s.top = true
    · refine .inr (.inr (.inl ⟨h₁, h₂, hz.1, hz.2, ?_⟩))
      rw [h₃, hz.1]
      simp [execute, hz.2]
    · refine .inr (.inr (.inr ⟨h₁, h₂, fun hd => ?_, h₃⟩))
      simpa [hd] using hz

/-- Executing an instruction never stops without a next state. -/
theorem exec_next (i : Instr) (s : State) : ∃ t, exec i s = .next t := ⟨_, exec_eq i s⟩

end Sys2Proof.Machine
end

