-- ==== Sys2Proof/Laws/Rounding.lean ====
section
/-! SUPPORT. Rounding to nearest, ties to even, over the natural numbers: `divRne` picks a nearest whole number, and `roundUnits` a
nearest binary64 magnitude (42_arithmetic.md R141). All numbers here count units of 2^-1074. -/

namespace Sys2Proof.Machine

open Sys2Proof

/-! ### Division to the nearest whole number -/

/-- `divRne` is the quotient or one more, whichever is nearer; halfway it is the even one. -/
theorem divRne_cases (num den : Nat) (hd : 0 < den) :
    (divRne num den = num / den ∧ 2 * (num % den) ≤ den ∧ (2 * (num % den) = den → divRne num den % 2 = 0)) ∨
    (divRne num den = num / den + 1 ∧ den ≤ 2 * (num % den) ∧ (2 * (num % den) = den → divRne num den % 2 = 0)) := by
  have hr := Nat.mod_lt num hd
  simp only [divRne]
  split
  · left; omega
  · split
    · right; omega
    · rcases Nat.mod_two_eq_zero_or_one (num / den) with h | h
      · left; omega
      · right; omega

/-- No whole number of `den`s is nearer to `num` than `divRne num den` of them, and where another is as near, `divRne num den` is
even. -/
theorem divRne_nearest (num den : Nat) (hd : 0 < den) (k : Int) :
    |(num : Int) - divRne num den * den| ≤ |(num : Int) - k * den| ∧
    (|(num : Int) - k * den| = |(num : Int) - divRne num den * den| → k ≠ divRne num den → divRne num den % 2 = 0) := by
  have hc := divRne_cases num den hd
  have hr := Nat.mod_lt num hd
  have hn : (num : Int) = (num / den : Nat) * den + (num % den : Nat) := by
    exact_mod_cast (Nat.div_add_mod' num den).symm
  generalize divRne num den = m at *
  generalize num / den = q at *
  generalize num % den = r at *
  obtain ⟨j, rfl⟩ : ∃ j : Int, k = q + j := ⟨k - q, by omega⟩
  rw [show (num : Int) - (q + j) * den = r - j * den by rw [add_mul]; omega]
  have hup : ∀ c : Int, c ≤ j → c * den ≤ j * den := fun c hc => by nlinarith
  have hdown : ∀ c : Int, j ≤ c → j * den ≤ c * den := fun c hc => by nlinarith
  rcases hc with ⟨rfl, h1, h2⟩ | ⟨rfl, h1, h2⟩
  · rw [show (num : Int) - m * den = r by omega, abs_of_nonneg (by omega)]
    rcases lt_trichotomy j 0 with hj | hj | hj
    · have := hdown (-1) (by omega)
      rw [abs_of_nonneg (by omega)]
      exact ⟨by omega, fun h => by omega⟩
    · subst hj
      rw [zero_mul, sub_zero, abs_of_nonneg (by omega)]
      exact ⟨le_refl _, fun _ h => absurd (add_zero _) h⟩
    · have := hup 1 (by omega)
      rw [abs_of_nonpos (by omega)]
      exact ⟨by omega, fun h _ => h2 (by omega)⟩
  · rw [show (num : Int) - ((q + 1 : Nat) : Int) * den = r - den by push_cast; rw [add_mul]; omega,
      abs_of_nonpos (by omega)]
    rcases lt_trichotomy j 1 with hj | hj | hj
    · have := hdown 0 (by omega)
      rw [abs_of_nonneg (by omega)]
      exact ⟨by omega, fun h _ => h2 (by omega)⟩
    · subst hj
      rw [one_mul, abs_of_nonpos (by omega)]
      exact ⟨le_refl _, fun _ h => absurd (by push_cast; rfl) h⟩
    · have := hup 2 (by omega)
      rw [abs_of_nonpos (by omega)]
      exact ⟨by omega, fun h => by omega⟩

/-! ### Magnitudes -/

/-- The magnitude, in units of 2^-1074, that the 63 bits below the sign stand for. -/
def magOf (p : Nat) : Nat := if p / 2 ^ 52 = 0 then p else (2 ^ 52 + p % 2 ^ 52) * 2 ^ (p / 2 ^ 52 - 1)

/-- `m` units in the last place of size `2^sh` are the pattern `sh * 2^52 + m`, for a subnormal and for a normal, and also when
the significand carries out. -/
theorem magOf_scaled (sh m : Nat) (hm : m ≤ 2 ^ 53) (hn : 0 < sh → 2 ^ 52 ≤ m) : magOf (sh * 2 ^ 52 + m) = m * 2 ^ sh := by
  unfold magOf
  rcases Nat.lt_or_ge m (2 ^ 52) with h | h
  · have hs : sh = 0 := by omega
    subst hs
    rw [if_pos (by omega)]
    omega
  · rcases Nat.lt_or_ge m (2 ^ 53) with h' | h'
    · rw [if_neg (by omega), show (sh * 2 ^ 52 + m) / 2 ^ 52 - 1 = sh by omega,
        show (sh * 2 ^ 52 + m) % 2 ^ 52 = m - 2 ^ 52 by omega, Nat.add_sub_cancel' h]
    · have : m = 2 ^ 53 := by omega
      subst this
      rw [if_neg (by omega), show (sh * 2 ^ 52 + 2 ^ 53) / 2 ^ 52 - 1 = sh + 1 by omega,
        show (sh * 2 ^ 52 + 2 ^ 53) % 2 ^ 52 = 0 by omega]
      ring

/-- A magnitude is a whole number of units in the last place of any smaller exponent. -/
theorem magOf_multiple (p sh : Nat) (h : sh = 0 ∨ (sh + 1) * 2 ^ 52 ≤ p) : ∃ k, magOf p = k * 2 ^ sh := by
  rcases h with rfl | h
  · exact ⟨magOf p, by simp⟩
  · unfold magOf
    rw [if_neg (by omega)]
    refine ⟨(2 ^ 52 + p % 2 ^ 52) * 2 ^ (p / 2 ^ 52 - 1 - sh), ?_⟩
    rw [Nat.mul_assoc, ← Nat.pow_add]
    congr 2
    omega

/-- A magnitude of a smaller exponent is below `2^52` units in the last place. -/
theorem magOf_small (p sh : Nat) (hs : 0 < sh) (h : p < (sh + 1) * 2 ^ 52) : magOf p < 2 ^ (52 + sh) := by
  unfold magOf
  split
  · calc p < 2 ^ 52 := by omega
      _ ≤ 2 ^ (52 + sh) := Nat.pow_le_pow_right (by decide) (by omega)
  · have h1 : 2 ^ 52 + p % 2 ^ 52 < 2 ^ 53 := by omega
    calc (2 ^ 52 + p % 2 ^ 52) * 2 ^ (p / 2 ^ 52 - 1) < 2 ^ 53 * 2 ^ (p / 2 ^ 52 - 1) :=
          Nat.mul_lt_mul_of_pos_right h1 (Nat.two_pow_pos _)
      _ ≤ 2 ^ 53 * 2 ^ (sh - 1) := Nat.mul_le_mul_left _ (Nat.pow_le_pow_right (by decide) (by omega))
      _ = 2 ^ (52 + sh) := by rw [← Nat.pow_add]; congr 1; omega

/-! ### Rounding to a magnitude -/

/-- From this many units of 2^-1074 on, `2^1024 - 2^970`, half a unit in the last place past the largest finite value, a result is
infinity. -/
def overflowUnits : Nat := (2 ^ 54 - 1) * 2 ^ 2044

/-- The exponent `roundUnits` rounds at. -/
def roundShift (num den : Nat) : Nat := (num / den).log2 - 52

/-- The significand `roundUnits` rounds to. -/
def roundSig (num den : Nat) : Nat := divRne num (den * 2 ^ roundShift num den)

theorem roundUnits_eq (num den : Nat) :
    roundUnits num den = min (roundShift num den * 2 ^ 52 + roundSig num den) infMag := rfl

theorem roundShift_bounds (num den : Nat) (hd : 0 < den) :
    num < den * 2 ^ (53 + roundShift num den) ∧
    (0 < roundShift num den → den * 2 ^ (52 + roundShift num den) ≤ num) := by
  rw [Nat.mul_comm den, Nat.mul_comm den, ← Nat.div_lt_iff_lt_mul hd, ← Nat.le_div_iff_mul_le hd]
  unfold roundShift
  constructor
  · rcases Nat.eq_zero_or_pos (num / den) with h | h
    · rw [h]; exact Nat.two_pow_pos _
    · calc num / den < 2 ^ ((num / den).log2 + 1) := Nat.lt_log2_self
        _ ≤ _ := Nat.pow_le_pow_right (by decide) (by omega)
  · intro hs
    rw [show 52 + ((num / den).log2 - 52) = (num / den).log2 by omega]
    exact Nat.log2_self_le (by rintro h; rw [h] at hs; simp at hs)

theorem roundSig_bounds (num den : Nat) (hd : 0 < den) :
    roundSig num den ≤ 2 ^ 53 ∧ (0 < roundShift num den → 2 ^ 52 ≤ roundSig num den) := by
  obtain ⟨h1, h2⟩ := roundShift_bounds num den hd
  have hpos : 0 < den * 2 ^ roundShift num den := Nat.mul_pos hd (Nat.two_pow_pos _)
  rw [Nat.pow_add, Nat.mul_left_comm] at h1 h2
  have h3 : num / (den * 2 ^ roundShift num den) < 2 ^ 53 := (Nat.div_lt_iff_lt_mul hpos).2 h1
  have h4 : 0 < roundShift num den → 2 ^ 52 ≤ num / (den * 2 ^ roundShift num den) :=
    fun h => (Nat.le_div_iff_mul_le hpos).2 (h2 h)
  rcases divRne_cases num _ hpos with ⟨h, -, -⟩ | ⟨h, -, -⟩ <;> unfold roundSig <;> rw [h]
  · exact ⟨by omega, h4⟩
  · exact ⟨by omega, fun h => by have := h4 h; omega⟩

/-- Before it is cut to infinity, the rounded pattern stands for `roundSig` units in the last place. -/
theorem magOf_rounded (num den : Nat) (hd : 0 < den) :
    magOf (roundShift num den * 2 ^ 52 + roundSig num den) = roundSig num den * 2 ^ roundShift num den :=
  magOf_scaled _ _ (roundSig_bounds num den hd).1 (roundSig_bounds num den hd).2

theorem pow_split (a b c : Nat) (h : c = a + b) : 2 ^ c = 2 ^ a * 2 ^ b := by rw [h, pow_add]

/-- The threshold is the largest finite magnitude and half a unit in the last place. -/
theorem overflowUnits_eq : overflowUnits = 2 ^ 2045 * (2 ^ 53 - 1) + 2 ^ 2044 := by
  unfold overflowUnits
  rw [pow_split 1 2044 2045 rfl]
  generalize 2 ^ 2044 = x
  omega

theorem mul_overflowUnits (den : Nat) : den * overflowUnits = den * 2 ^ 2045 * (2 ^ 53 - 1) + den * 2 ^ 2044 := by
  rw [overflowUnits_eq, Nat.mul_add, Nat.mul_assoc]

theorem overflowUnits_lt : overflowUnits < 2 ^ 2098 := by
  unfold overflowUnits
  rw [pow_split 54 2044 2098 rfl]
  have : 0 < 2 ^ 2044 := by positivity
  generalize 2 ^ 2044 = x at *
  omega

theorem le_overflowUnits : 2 ^ 2097 ≤ overflowUnits := by
  unfold overflowUnits
  rw [pow_split 53 2044 2097 rfl]
  generalize 2 ^ 2044 = x at *
  omega

theorem double_units (den : Nat) : den * 2 ^ 2045 = 2 * (den * 2 ^ 2044) := by
  rw [pow_split 1 2044 2045 rfl, Nat.mul_left_comm, pow_one]

/-- A result below the overflow threshold rounds to a finite magnitude. -/
theorem roundUnits_finite (num den : Nat) (hd : 0 < den) (h : num < den * overflowUnits) :
    roundShift num den * 2 ^ 52 + roundSig num den < infMag := by
  obtain ⟨h1, h2⟩ := roundShift_bounds num den hd
  obtain ⟨h3, h4⟩ := roundSig_bounds num den hd
  have hsh : roundShift num den ≤ 2045 := by
    by_contra hc
    have hge := h2 (by omega)
    have h5 : den * 2 ^ 2098 ≤ den * 2 ^ (52 + roundShift num den) :=
      Nat.mul_le_mul_left _ (pow_le_pow_right₀ (by decide) (by omega))
    have h6 : den * overflowUnits < den * 2 ^ 2098 := Nat.mul_lt_mul_of_pos_left overflowUnits_lt hd
    exact absurd (h.trans (h6.trans_le (h5.trans hge))) (lt_irrefl _)
  unfold infMag
  rcases Nat.lt_or_ge (roundShift num den) 2045 with hlt | hge
  · omega
  · have hs : roundShift num den = 2045 := by omega
    have hpos : 0 < den * 2 ^ 2045 := by positivity
    suffices roundSig num den < 2 ^ 53 by omega
    have hdm := Nat.div_add_mod num (den * 2 ^ 2045)
    have hnum : num < den * 2 ^ 2045 * (2 ^ 53 - 1) + den * 2 ^ 2044 :=
      lt_of_lt_of_eq h (mul_overflowUnits den)
    have hq : num / (den * 2 ^ 2045) < 2 ^ 53 := by
      have := (Nat.div_lt_iff_lt_mul hpos).2 (lt_of_lt_of_eq h1 (by rw [hs, pow_add, Nat.mul_left_comm]))
      exact this
    rcases divRne_cases num _ hpos with ⟨he, -, -⟩ | ⟨he, hup, -⟩
    · unfold roundSig; rw [hs, he]; exact hq
    · unfold roundSig
      rw [hs, he]
      by_contra hc
      have hqe : num / (den * 2 ^ 2045) = 2 ^ 53 - 1 := by omega
      rw [hqe] at hdm
      have hdbl := double_units den
      clear h1 h2 h
      generalize den * 2 ^ 2045 = x at *
      generalize den * 2 ^ 2044 = y at *
      omega

/-- A result at or past the overflow threshold rounds to infinity. -/
theorem roundUnits_overflow (num den : Nat) (hd : 0 < den) (h : den * overflowUnits ≤ num) : roundUnits num den = infMag := by
  obtain ⟨h1, h2⟩ := roundShift_bounds num den hd
  obtain ⟨h3, h4⟩ := roundSig_bounds num den hd
  rw [roundUnits_eq]
  apply Nat.min_eq_right
  have hsh : 2045 ≤ roundShift num den := by
    by_contra hc
    have h5 : den * 2 ^ (53 + roundShift num den) ≤ den * 2 ^ 2097 :=
      Nat.mul_le_mul_left _ (pow_le_pow_right₀ (by decide) (by omega))
    have h6 : den * 2 ^ 2097 ≤ den * overflowUnits := Nat.mul_le_mul_left _ le_overflowUnits
    exact absurd (h1.trans_le (h5.trans (h6.trans h))) (lt_irrefl _)
  unfold infMag
  rcases Nat.lt_or_ge 2045 (roundShift num den) with hlt | hge
  · have := h4 (by omega)
    omega
  · have hs : roundShift num den = 2045 := by omega
    have hpos : 0 < den * 2 ^ 2045 := by positivity
    suffices 2 ^ 53 ≤ roundSig num den by omega
    have hdm := Nat.div_add_mod num (den * 2 ^ 2045)
    have hnum : den * 2 ^ 2045 * (2 ^ 53 - 1) + den * 2 ^ 2044 ≤ num :=
      le_of_eq_of_le (mul_overflowUnits den).symm h
    have hq : 2 ^ 53 - 1 ≤ num / (den * 2 ^ 2045) := by
      rw [Nat.le_div_iff_mul_le hpos, Nat.mul_comm]
      exact le_trans (Nat.le_add_right _ _) hnum
    have hdbl := double_units den
    rcases divRne_cases num _ hpos with ⟨he, hlow, heven⟩ | ⟨he, -, -⟩
    · unfold roundSig
      rw [hs]
      rw [he] at heven ⊢
      by_contra hc
      have hqe : num / (den * 2 ^ 2045) = 2 ^ 53 - 1 := by omega
      rw [hqe] at hdm heven
      clear h1 h2 h
      generalize den * 2 ^ 2045 = x at *
      generalize den * 2 ^ 2044 = y at *
      have := heven (by omega)
      omega
    · unfold roundSig
      rw [hs, he]
      omega

/-- Below the overflow threshold, no magnitude of either sign is nearer to `num/den` than the rounded one, and where another
number is as near, the rounded pattern is even. -/
theorem roundUnits_nearest (num den : Nat) (hd : 0 < den) (h : num < den * overflowUnits) (p : Nat) (neg : Bool) :
    let y : Int := if neg then -(magOf p : Int) else magOf p
    |(num : Int) - magOf (roundUnits num den) * den| ≤ |(num : Int) - y * den| ∧
    (|(num : Int) - y * den| = |(num : Int) - magOf (roundUnits num den) * den| → y ≠ magOf (roundUnits num den) →
      roundUnits num den % 2 = 0) := by
  intro y
  have hfin := roundUnits_finite num den hd h
  have hr : roundUnits num den = roundShift num den * 2 ^ 52 + roundSig num den := by
    rw [roundUnits_eq]; exact Nat.min_eq_left hfin.le
  have hmag := magOf_rounded num den hd
  rw [← hr] at hmag
  have hpar : roundUnits num den % 2 = roundSig num den % 2 := by rw [hr]; omega
  rw [hmag, hpar]
  obtain ⟨h1, h2⟩ := roundShift_bounds num den hd
  have hpos : 0 < den * 2 ^ roundShift num den := Nat.mul_pos hd (Nat.two_pow_pos _)
  have near := divRne_nearest num (den * 2 ^ roundShift num den) hpos
  have assoc : ∀ k : Int, k * ((den * 2 ^ roundShift num den : Nat) : Int) = k * 2 ^ roundShift num den * den := by
    intro k; push_cast; ring
  simp only [assoc] at near
  change ∀ k : Int, |(num : Int) - (roundSig num den : Int) * 2 ^ roundShift num den * den| ≤ _ ∧
    (_ = |(num : Int) - (roundSig num den : Int) * 2 ^ roundShift num den * den| → k ≠ (roundSig num den : Int) →
      roundSig num den % 2 = 0) at near
  push_cast
  have mult : ∀ k : Int, y = k * 2 ^ roundShift num den →
      |(num : Int) - (roundSig num den : Int) * 2 ^ roundShift num den * den| ≤ |(num : Int) - y * den| ∧
      (|(num : Int) - y * den| = |(num : Int) - (roundSig num den : Int) * 2 ^ roundShift num den * den| →
        y ≠ (roundSig num den : Int) * 2 ^ roundShift num den → roundSig num den % 2 = 0) := by
    rintro k hk
    rw [hk]
    exact ⟨(near k).1, fun he hne => (near k).2 he fun hc => hne (by rw [hc])⟩
  have far : |(num : Int) - (roundSig num den : Int) * 2 ^ roundShift num den * den| < |(num : Int) - y * den| →
      |(num : Int) - (roundSig num den : Int) * 2 ^ roundShift num den * den| ≤ |(num : Int) - y * den| ∧
      (|(num : Int) - y * den| = |(num : Int) - (roundSig num den : Int) * 2 ^ roundShift num den * den| →
        y ≠ (roundSig num den : Int) * 2 ^ roundShift num den → roundSig num den % 2 = 0) :=
    fun hlt => ⟨hlt.le, fun he => absurd he hlt.ne'⟩
  have hdI : (0 : Int) < den := by exact_mod_cast hd
  by_cases hneg : y < 0
  · refine far (lt_of_le_of_lt (near 0).1 ?_)
    have : y * den < 0 := mul_neg_of_neg_of_pos hneg hdI
    rw [zero_mul, zero_mul, sub_zero, abs_of_nonneg (by omega), abs_of_nonneg (by omega)]
    omega
  · have hy : y = magOf p := by
      by_cases hn : neg = true
      · have : y = -(magOf p : Int) := if_pos hn
        omega
      · exact if_neg hn
    by_cases hp : roundShift num den = 0 ∨ (roundShift num den + 1) * 2 ^ 52 ≤ p
    · obtain ⟨k, hk⟩ := magOf_multiple p _ hp
      exact mult k (by rw [hy, hk]; push_cast; rfl)
    · have hs : 0 < roundShift num den := by omega
      have hsm := magOf_small p _ hs (by omega)
      refine far (lt_of_le_of_lt (near (2 ^ 52)).1 ?_)
      have hge := h2 hs
      have hge' : (2 : Int) ^ 52 * 2 ^ roundShift num den * den ≤ num := by
        have : ((den * 2 ^ (52 + roundShift num den) : Nat) : Int) ≤ num := by exact_mod_cast hge
        rw [Nat.pow_add] at this
        push_cast at this
        linarith
      have hylt : y * den < 2 ^ 52 * 2 ^ roundShift num den * den := by
        apply mul_lt_mul_of_pos_right _ hdI
        rw [hy]
        have : (magOf p : Int) < ((2 ^ (52 + roundShift num den) : Nat) : Int) := by exact_mod_cast hsm
        rw [Nat.pow_add] at this
        push_cast at this
        exact this
      rw [abs_of_nonneg (by linarith), abs_of_nonneg (by linarith)]
      linarith

end Sys2Proof.Machine
end

