-- ==== Sys2Proof/Laws/FpAlu.lean ====
section
/-! SUPPORT. The fields, classes and numbers of a binary64, and what packing a sign and a rounded magnitude stands for. -/

namespace Sys2Proof.Machine

open Sys2Proof

/-! ### Fields -/

/-- A value is its sign bit, its exponent field and its fraction. -/
theorem fp_toNat (v : Value) : v.toNat = (if fpSign v then 2 ^ 63 else 0) + (fpExp v * 2 ^ 52 + fpFrac v) ∧
    fpExp v < 2 ^ 11 ∧ fpFrac v < 2 ^ 52 := by
  have hv := v.isLt
  have hs : fpSign v = decide (2 ^ 63 ≤ v.toNat) := by
    rw [fpSign, ← BitVec.msb_eq_getLsbD_last, BitVec.msb_eq_decide]
  rw [hs]
  unfold fpExp fpFrac
  simp only [decide_eq_true_eq]
  split <;> omega

theorem fpExp_eq (v : Value) : (v.extractLsb' 52 11).toNat = fpExp v := by
  rw [BitVec.extractLsb'_toNat, Nat.shiftRight_eq_div_pow, fpExp]

theorem fpFrac_eq (v : Value) : (v.extractLsb' 0 52).toNat = fpFrac v := by
  rw [BitVec.extractLsb'_toNat, Nat.shiftRight_zero, fpFrac]

theorem fp_ext {v w : Value} (hs : fpSign v = fpSign w) (h : fpExp v * 2 ^ 52 + fpFrac v = fpExp w * 2 ^ 52 + fpFrac w) :
    v = w := by
  apply BitVec.eq_of_toNat_eq
  rw [(fp_toNat v).1, (fp_toNat w).1, hs, h]

theorem fp_low (v : Value) : v.toNat % 2 ^ 63 = fpExp v * 2 ^ 52 + fpFrac v := by
  have := fp_toNat v
  split at this <;> omega

/-! ### Classes -/

theorem finite_iff (v : Value) : FiniteValue v ↔ fpExp v ≠ 0x7FF := by
  rw [FiniteValue, ne_eq, ← BitVec.toNat_inj, fpExp_eq]
  rfl

theorem notANumber_iff (v : Value) : NotANumber v ↔ fpExp v = 0x7FF ∧ fpFrac v ≠ 0 := by
  rw [NotANumber, ne_eq, ← BitVec.toNat_inj, ← BitVec.toNat_inj, fpExp_eq, fpFrac_eq]
  rfl

theorem isNaN_iff (v : Value) : isNaN v = true ↔ NotANumber v := by
  simp [isNaN, notANumber_iff]

theorem infinite_iff (v : Value) : InfiniteValue v ↔ fpExp v = 0x7FF ∧ fpFrac v = 0 := by
  constructor
  · rintro (rfl | rfl) <;> decide
  · rintro ⟨he, hf⟩
    cases hs : fpSign v with
    | false => exact .inl (fp_ext (by rw [hs]; decide) (by rw [he, hf]; decide))
    | true => exact .inr (fp_ext (by rw [hs]; decide) (by rw [he, hf]; decide))

theorem isInf_iff (v : Value) : isInf v = true ↔ InfiniteValue v := by
  simp [isInf, infinite_iff]

theorem signedZero_iff (v : Value) : SignedZero v ↔ fpExp v = 0 ∧ fpFrac v = 0 := by
  constructor
  · rintro (rfl | rfl) <;> decide
  · rintro ⟨he, hf⟩
    cases hs : fpSign v with
    | false => exact .inl (fp_ext (by rw [hs]; decide) (by rw [he, hf]; decide))
    | true => exact .inr (fp_ext (by rw [hs]; decide) (by rw [he, hf]; decide))

theorem isZero_iff_low (v : Value) : isZero v = true ↔ fpExp v = 0 ∧ fpFrac v = 0 := by
  have := fp_toNat v
  have := fp_low v
  rw [isZero, beq_iff_eq, ← BitVec.toNat_inj, BitVec.extractLsb'_toNat, Nat.shiftRight_zero]
  simp only [BitVec.toNat_ofNat]
  omega

theorem isZero_iff_signedZero (v : Value) : isZero v = true ↔ SignedZero v := by
  rw [isZero_iff_low, signedZero_iff]

/-- A value is finite, infinite or a NaN, and only one of them. -/
theorem fp_classes (v : Value) :
    (FiniteValue v ∧ isInf v = false ∧ isNaN v = false) ∨
    (InfiniteValue v ∧ isInf v = true ∧ isNaN v = false) ∨
    (NotANumber v ∧ isInf v = false ∧ isNaN v = true) := by
  rw [finite_iff, infinite_iff, notANumber_iff, isInf, isNaN]
  by_cases he : fpExp v = 0x7FF <;> by_cases hf : fpFrac v = 0 <;> simp [he, hf]

theorem isInf_of_finite {v : Value} (h : FiniteValue v) : isInf v = false := by
  rw [finite_iff] at h
  simp [isInf, h]

theorem isNaN_of_finite {v : Value} (h : FiniteValue v) : isNaN v = false := by
  rw [finite_iff] at h
  simp [isNaN, h]

/-! ### Packing -/

theorem fpPack_toNat (s : Bool) {p : Nat} (hp : p < 2 ^ 63) : (fpPack s p).toNat = (if s then 2 ^ 63 else 0) + p := by
  rw [fpPack, BitVec.toNat_ofNat]
  apply Nat.mod_eq_of_lt
  split <;> omega

@[simp] theorem fpSign_fpPack (s : Bool) {p : Nat} (hp : p < 2 ^ 63) : fpSign (fpPack s p) = s := by
  rw [fpSign, ← BitVec.msb_eq_getLsbD_last, BitVec.msb_eq_decide, fpPack_toNat s hp]
  cases s <;> simp
  exact hp

theorem low_fpPack (s : Bool) {p : Nat} (hp : p < 2 ^ 63) :
    fpExp (fpPack s p) * 2 ^ 52 + fpFrac (fpPack s p) = p := by
  rw [← fp_low, fpPack_toNat s hp]
  split <;> omega

theorem fpExp_fpPack (s : Bool) {p : Nat} (hp : p < 2 ^ 63) : fpExp (fpPack s p) = p / 2 ^ 52 := by
  have := low_fpPack s hp
  have := (fp_toNat (fpPack s p)).2
  omega

theorem fpFrac_fpPack (s : Bool) {p : Nat} (hp : p < 2 ^ 63) : fpFrac (fpPack s p) = p % 2 ^ 52 := by
  have := low_fpPack s hp
  have := (fp_toNat (fpPack s p)).2
  omega

theorem finite_fpPack (s : Bool) {p : Nat} (hp : p < infMag) : FiniteValue (fpPack s p) := by
  unfold infMag at hp
  rw [finite_iff, fpExp_fpPack s (by omega)]
  omega

theorem fpPack_infMag (s : Bool) : fpPack s infMag = infinityOf s := by cases s <;> decide

theorem fpPack_zero (s : Bool) : fpPack s 0 = zeroOf s := by cases s <;> decide

theorem roundUnits_le (num den : Nat) : roundUnits num den ≤ infMag := by
  rw [roundUnits_eq]
  exact Nat.min_le_right _ _

theorem roundUnits_lt (num den : Nat) : roundUnits num den < 2 ^ 63 := by
  have := roundUnits_le num den
  unfold infMag at this
  omega

/-! ### The number a value stands for -/

theorem fpMag_eq (v : Value) : fpMag v = magOf (v.toNat % 2 ^ 63) := by
  have := (fp_toNat v).2
  unfold fpMag magOf
  rw [fp_low, show (fpExp v * 2 ^ 52 + fpFrac v) / 2 ^ 52 = fpExp v by omega,
    show (fpExp v * 2 ^ 52 + fpFrac v) % 2 ^ 52 = fpFrac v by omega]
  split
  · omega
  · rfl

theorem fpMag_fpPack (s : Bool) {p : Nat} (hp : p < 2 ^ 63) : fpMag (fpPack s p) = magOf p := by
  rw [fpMag_eq, fp_low, low_fpPack s hp]

/-- The size of one unit, 2^-1074. -/
def unit : ℚ := (2 : ℚ) ^ (-1074 : ℤ)

theorem unit_pos : 0 < unit := by unfold unit; positivity

theorem unitsPerOne_pos : 0 < unitsPerOne := by unfold unitsPerOne; positivity

/-- `unitsPerOne` units are 1. -/
theorem unitsPerOne_mul_unit : (unitsPerOne : ℚ) * unit = 1 := by
  have h : ∀ n : Nat, ((2 ^ n : Nat) : ℚ) * 2 ^ (-(n : ℤ)) = 1 := by
    intro n
    rw [zpow_neg, zpow_natCast, Nat.cast_pow, Nat.cast_ofNat]
    exact mul_inv_cancel₀ (by positivity)
  exact h 1074

/-- The IEEE-754 reading of a value is its whole number of units (42_arithmetic.md R140). -/
theorem realValue_eq (v : Value) : realValue v = fpInt v * unit := by
  have h52 : ∀ n : ℤ, (2 : ℚ) ^ (n + (52 + -1074)) = 2 ^ n * 2 ^ 52 * unit := by
    intro n
    rw [zpow_add₀ (by norm_num), zpow_add₀ (by norm_num), ← mul_assoc]
    rfl
  have hmag : (if fpExp v = 0 then ((fpFrac v : ℚ) / 2 ^ 52) * (2 : ℚ) ^ (-1022 : ℤ)
      else (1 + (fpFrac v : ℚ) / 2 ^ 52) * (2 : ℚ) ^ ((fpExp v : ℤ) - 1023)) = (fpMag v : ℚ) * unit := by
    unfold fpMag
    split
    · rw [show (-1022 : ℤ) = 0 + (52 + -1074) by norm_num, h52]
      generalize unit = u
      ring
    · obtain ⟨k, hk⟩ : ∃ k, fpExp v = k + 1 := ⟨fpExp v - 1, by omega⟩
      rw [hk, show ((k + 1 : Nat) : ℤ) - 1023 = (k : ℤ) + (52 + -1074) by push_cast; ring, h52, Nat.add_sub_cancel]
      push_cast
      rw [zpow_natCast]
      generalize unit = u
      ring
  unfold realValue fpInt
  simp only [fpExp_eq, fpFrac_eq]
  rw [hmag]
  change (if fpSign v = true then (-1 : ℚ) else 1) * _ = _
  split
  · push_cast; ring
  · push_cast; ring

/-! ### Correct rounding -/

theorem cast_units (a b : Nat) : (((2 ^ a - 1) * 2 ^ b : Nat) : ℚ) = (2 ^ (a : ℤ) - 1) * 2 ^ (b : ℤ) := by
  rw [Nat.cast_mul, Nat.cast_sub Nat.one_le_two_pow]
  push_cast
  rw [zpow_natCast, zpow_natCast]

/-- The overflow threshold in units. -/
theorem overflow_unit : (2 ^ 1024 - 2 ^ 970 : ℚ) = overflowUnits * unit := by
  have h1 : (2 : ℚ) ^ 1024 = 2 ^ ((54 : Nat) : ℤ) * 2 ^ ((2044 : Nat) : ℤ) * 2 ^ (-1074 : ℤ) := by
    rw [← zpow_add₀ (by norm_num), ← zpow_add₀ (by norm_num), ← zpow_natCast]; congr 1
  have h2 : (2 : ℚ) ^ 970 = 2 ^ ((2044 : Nat) : ℤ) * 2 ^ (-1074 : ℤ) := by
    rw [← zpow_add₀ (by norm_num), ← zpow_natCast]; congr 1
  rw [h1, h2, overflowUnits, cast_units, unit]
  generalize (2 : ℚ) ^ ((54 : Nat) : ℤ) = x
  generalize (2 : ℚ) ^ ((2044 : Nat) : ℤ) = y
  generalize (2 : ℚ) ^ (-1074 : ℤ) = z
  ring

theorem overflow_pos : 0 < overflowUnits * unit := by
  have h : 0 < overflowUnits := lt_of_lt_of_le (by positivity) le_overflowUnits
  exact mul_pos (Nat.cast_pos.2 h) unit_pos

/-- A sign as a factor. -/
def sgn (s : Bool) : Int := if s then -1 else 1

theorem fpInt_fpPack (s : Bool) {p : Nat} (hp : p < 2 ^ 63) : fpInt (fpPack s p) = sgn s * magOf p := by
  rw [fpInt, fpSign_fpPack s hp, fpMag_fpPack s hp, sgn]
  split <;> omega

/-- A sign and a rounded magnitude are the signed quotient, correctly rounded (42_arithmetic.md R141). -/
theorem roundsTo_fpPack (s : Bool) (num den : Nat) (hd : 0 < den) :
    RoundsTo ((sgn s : ℚ) * ((num : ℚ) / den) * unit) (fpPack s (roundUnits num den)) := by
  have hu := unit_pos
  have hdq : (0 : ℚ) < den := by exact_mod_cast hd
  have habs : |(sgn s : ℚ) * ((num : ℚ) / den) * unit| = (num : ℚ) / den * unit := by
    rw [abs_mul, abs_mul, abs_of_pos hu, abs_of_nonneg (a := (num:ℚ)/den) (by positivity)]
    cases s <;> simp [sgn]
  have hge : overflowUnits * unit ≤ (num : ℚ) / den * unit → den * overflowUnits ≤ num := by
    intro h
    have h := le_of_mul_le_mul_right h hu
    rw [le_div_iff₀ hdq] at h
    rw [Nat.mul_comm]
    exact_mod_cast h
  refine ⟨fun h => ?_, fun h => ?_, fun h => ?_⟩
  · rw [habs, overflow_unit] at h
    have h := lt_of_mul_lt_mul_right h hu.le
    rw [div_lt_iff₀ hdq] at h
    have hlt : num < den * overflowUnits := by rw [Nat.mul_comm]; exact_mod_cast h
    have hfin : roundUnits num den < infMag := by
      rw [roundUnits_eq]; exact lt_of_le_of_lt (Nat.min_le_left _ _) (roundUnits_finite num den hd hlt)
    have hp := roundUnits_lt num den
    refine ⟨finite_fpPack s hfin, fun v _ => ?_⟩
    have near := roundUnits_nearest num den hd hlt (v.toNat % 2 ^ 63) (s ^^ fpSign v)
    simp only at near
    generalize hy : (if (s ^^ fpSign v) = true then -(magOf (v.toNat % 2 ^ 63) : Int) else magOf (v.toNat % 2 ^ 63)) = y at near
    have hv : fpInt v = sgn s * y := by
      rw [← hy, fpInt, fpMag_eq]
      cases s <;> cases fpSign v <;> simp [sgn]
    have dist : ∀ z : Int, |(sgn s : ℚ) * ((num : ℚ) / den) * unit - ((sgn s * z : Int) : ℚ) * unit| =
        ((|(num : Int) - z * den| : Int) : ℚ) * (unit / den) := by
      intro z
      have : (sgn s : ℚ) * ((num : ℚ) / den) * unit - ((sgn s * z : Int) : ℚ) * unit =
          (sgn s : ℚ) * (((num : ℚ) - z * den) * (unit / den)) := by
        push_cast; field_simp
      rw [this, abs_mul, abs_mul, abs_of_pos (a := unit / den) (by positivity)]
      push_cast
      cases s <;> simp [sgn]
    rw [realValue_eq, realValue_eq, fpInt_fpPack s hp, hv, dist, dist]
    have hs : (sgn s) ≠ 0 := by cases s <;> decide
    have hud : 0 < unit / den := by positivity
    refine ⟨mul_le_mul_of_nonneg_right (by exact_mod_cast near.1) hud.le, fun he hne => ?_⟩
    have := near.2 (by exact_mod_cast mul_right_cancel₀ hud.ne' he) (by rintro rfl; exact hne rfl)
    have h0 : (fpPack s (roundUnits num den)).toNat % 2 = 0 := by
      rw [fpPack_toNat s hp]; split <;> omega
    simp only [BitVec.getLsbD, Nat.testBit_zero, decide_eq_false_iff_not]
    omega
  · rw [overflow_unit] at h
    have hpos := overflow_pos
    have hq : (0 : ℚ) ≤ (num : ℚ) / den * unit := mul_nonneg (div_nonneg (Nat.cast_nonneg _) hdq.le) hu.le
    generalize overflowUnits * unit = c at *
    cases s with
    | false =>
      have h' := hge (by simpa [sgn] using h)
      rw [roundUnits_overflow num den hd h']
      decide
    | true =>
      simp only [sgn, if_true, Int.cast_neg, Int.cast_one, neg_mul] at h
      linarith
  · rw [overflow_unit] at h
    have hpos := overflow_pos
    have hq : (0 : ℚ) ≤ (num : ℚ) / den * unit := mul_nonneg (div_nonneg (Nat.cast_nonneg _) hdq.le) hu.le
    generalize overflowUnits * unit = c at *
    cases s with
    | true =>
      simp only [sgn, if_true, Int.cast_neg, Int.cast_one, neg_mul] at h
      have h' := hge (by linarith)
      rw [roundUnits_overflow num den hd h']
      decide
    | false =>
      simp [sgn] at h
      linarith

/-- `roundInt` rounds a whole number of units. -/
theorem roundsTo_roundInt (n : Int) (z : Bool) : RoundsTo ((n : ℚ) * unit) (roundInt n z) := by
  have h := roundsTo_fpPack (if n = 0 then z else decide (n < 0)) n.natAbs 1 (by decide)
  have hs : sgn (if n = 0 then z else decide (n < 0)) * (n.natAbs : Int) = n := by
    unfold sgn
    split
    · subst_vars; simp
    · by_cases h : n < 0
      · simp only [h, decide_true, if_true]; omega
      · simp only [h, decide_false, Bool.false_eq_true, if_false]; omega
  have hq := congrArg (Int.cast : Int → ℚ) hs
  rw [Int.cast_mul, Int.cast_natCast] at hq
  rwa [Nat.cast_one, div_one, hq] at h

theorem roundInt_zero (z : Bool) : roundInt 0 z = zeroOf z := by cases z <;> decide

/-- A value of magnitude 0 is a zero. -/
theorem eq_zeroOf_of_fpMag {v : Value} (h : fpMag v = 0) : v = zeroOf (fpSign v) := by
  have hz : fpExp v = 0 ∧ fpFrac v = 0 := by
    unfold fpMag at h
    split at h
    · exact ⟨‹_›, h⟩
    · have : 0 < (2 ^ 52 + fpFrac v) * 2 ^ (fpExp v - 1) := by positivity
      omega
  apply fp_ext
  · cases fpSign v <;> decide
  · rw [hz.1, hz.2]; cases fpSign v <;> decide

theorem eq_zeroOf_of_fpInt {v : Value} (h : fpInt v = 0) : v = zeroOf (fpSign v) :=
  eq_zeroOf_of_fpMag (by unfold fpInt at h; split at h <;> omega)

theorem isZero_false {v : Value} (h : ¬SignedZero v) : isZero v = false := by
  rw [← isZero_iff_signedZero] at h; simpa using h

theorem fpMag_pos {v : Value} (h : ¬SignedZero v) : 0 < fpMag v := by
  rcases Nat.eq_zero_or_pos (fpMag v) with hm | hm
  · refine absurd ?_ h
    rw [eq_zeroOf_of_fpMag hm]
    cases fpSign v
    · exact .inl rfl
    · exact .inr rfl
  · exact hm

/-! ### Negation -/

theorem fneg64_extract (a : Value) (i n : Nat) (h : (0x8000000000000000#64).extractLsb' i n = 0#n) :
    (fneg64 a).extractLsb' i n = a.extractLsb' i n := by
  rw [fneg64, BitVec.extractLsb'_xor, h, BitVec.xor_zero]

@[simp] theorem fpSign_fneg64 (a : Value) : fpSign (fneg64 a) = !fpSign a := by simp [fneg64, fpSign]

@[simp] theorem fpExp_fneg64 (a : Value) : fpExp (fneg64 a) = fpExp a := by
  rw [← fpExp_eq, ← fpExp_eq, fneg64_extract a 52 11 (by decide)]

@[simp] theorem fpFrac_fneg64 (a : Value) : fpFrac (fneg64 a) = fpFrac a := by
  rw [← fpFrac_eq, ← fpFrac_eq, fneg64_extract a 0 52 (by decide)]

@[simp] theorem isNaN_fneg64 (a : Value) : isNaN (fneg64 a) = isNaN a := by simp [isNaN]

@[simp] theorem isInf_fneg64 (a : Value) : isInf (fneg64 a) = isInf a := by simp [isInf]

@[simp] theorem fpInt_fneg64 (a : Value) : fpInt (fneg64 a) = -fpInt a := by
  unfold fpInt fpMag
  rw [fpSign_fneg64, fpExp_fneg64, fpFrac_fneg64]
  cases fpSign a <;> simp

@[simp] theorem fneg64_fneg64 (a : Value) : fneg64 (fneg64 a) = a := by
  rw [fneg64, fneg64, BitVec.xor_assoc, BitVec.xor_self, BitVec.xor_zero]

@[simp] theorem finiteValue_fneg64 (a : Value) : FiniteValue (fneg64 a) ↔ FiniteValue a := by
  rw [finite_iff, finite_iff, fpExp_fneg64]

/-! ### NaN results -/

/-- Whatever the free value is, a NaN result has all of bits 62:51 set (42_arithmetic.md R143). -/
theorem nanOf_quiet (op : AluOp) (a b : Value) : (nanOf op a b).extractLsb' 51 12 = 0xFFF#12 := by
  rw [nanOf, BitVec.extractLsb'_or]
  exact BitVec.or_allOnes

theorem notANumber_of_quiet {v : Value} (h : v.extractLsb' 51 12 = 0xFFF#12) : NotANumber v := by
  have h := congrArg BitVec.toNat h
  rw [BitVec.extractLsb'_toNat, Nat.shiftRight_eq_div_pow] at h
  rw [notANumber_iff]
  unfold fpExp fpFrac
  simp only [BitVec.toNat_ofNat] at h
  omega

theorem notANumber_nanOf (op : AluOp) (a b : Value) : NotANumber (nanOf op a b) := notANumber_of_quiet (nanOf_quiet op a b)

theorem isNaN_of_infinite {v : Value} (h : InfiniteValue v) : isNaN v = false := by
  rcases h with rfl | rfl <;> decide

theorem isZero_of_infinite {v : Value} (h : InfiniteValue v) : isZero v = false := by
  rcases h with rfl | rfl <;> decide

theorem not_notANumber_of_infinite {v : Value} (h : InfiniteValue v) : ¬NotANumber v := by
  rw [← isNaN_iff, isNaN_of_infinite h]; simp

theorem not_notANumber_of_finite {v : Value} (h : FiniteValue v) : ¬NotANumber v := by
  rw [← isNaN_iff, isNaN_of_finite h]; simp

/-- What is packed from a pattern up to infinity is no NaN. -/
theorem not_notANumber_fpPack (s : Bool) {p : Nat} (hp : p ≤ infMag) : ¬NotANumber (fpPack s p) := by
  rcases Nat.lt_or_ge p infMag with h | h
  · exact not_notANumber_of_finite (finite_fpPack s h)
  · rw [show p = infMag by omega, fpPack_infMag]
    exact not_notANumber_of_infinite (by cases s; exact .inl rfl; exact .inr rfl)

/-! ### One lemma for each operation on finite operands -/

theorem fadd64_finite {a b : Value} (ha : FiniteValue a) (hb : FiniteValue b) :
    fadd64 a b = roundInt (fpInt a + fpInt b) (fpSign a && fpSign b) := by
  simp [fadd64, orNan, sumNumbers, isNaN_of_finite ha, isNaN_of_finite hb, isInf_of_finite ha, isInf_of_finite hb]

theorem fsub64_finite {a b : Value} (ha : FiniteValue a) (hb : FiniteValue b) :
    fsub64 a b = roundInt (fpInt a - fpInt b) (fpSign a && !fpSign b) := by
  simp [fsub64, orNan, sumNumbers, isNaN_of_finite ha, isNaN_of_finite hb, isInf_of_finite ha, isInf_of_finite hb,
    sub_eq_add_neg]

theorem fmul64_finite {a b : Value} (ha : FiniteValue a) (hb : FiniteValue b) :
    fmul64 a b = fpPack (fpSign a ^^ fpSign b) (roundUnits (fpMag a * fpMag b) unitsPerOne) := by
  simp only [fmul64, orNan, mulNumbers, isNaN_of_finite ha, isNaN_of_finite hb, isInf_of_finite ha, isInf_of_finite hb]
  rfl

theorem fdiv64_finite {a b : Value} (ha : FiniteValue a) (hb : FiniteValue b) (hz : ¬SignedZero b) :
    fdiv64 a b = fpPack (fpSign a ^^ fpSign b) (roundUnits (fpMag a * unitsPerOne) (fpMag b)) := by
  simp only [fdiv64, orNan, divNumbers, isNaN_of_finite ha, isNaN_of_finite hb, isInf_of_finite ha, isInf_of_finite hb,
    isZero_false hz]
  rfl

/-! ### The operations on operands that are no NaN never give one -/

theorem sumNumbers_not_notANumber {a b v : Value} (h : sumNumbers a b = some v) : ¬NotANumber v := by
  unfold sumNumbers at h
  cases ha : isInf a <;> cases hb : isInf b <;> simp [ha, hb] at h
  · subst h; exact not_notANumber_fpPack _ (roundUnits_le _ _)
  · subst h; exact not_notANumber_of_infinite ((isInf_iff _).1 hb)
  · subst h; exact not_notANumber_of_infinite ((isInf_iff _).1 ha)
  · rw [← h.2]; exact not_notANumber_of_infinite ((isInf_iff _).1 ha)

theorem mulNumbers_not_notANumber {a b v : Value} (h : mulNumbers a b = some v) : ¬NotANumber v := by
  unfold mulNumbers at h
  split at h
  · split at h
    · exact absurd h (by simp)
    · rw [← Option.some.inj h]; exact not_notANumber_fpPack _ le_rfl
  · rw [← Option.some.inj h]; exact not_notANumber_fpPack _ (roundUnits_le _ _)

theorem divNumbers_not_notANumber {a b v : Value} (h : divNumbers a b = some v) : ¬NotANumber v := by
  unfold divNumbers at h
  split at h
  · split at h
    · exact absurd h (by simp)
    · rw [← Option.some.inj h]; exact not_notANumber_fpPack _ le_rfl
  · split at h
    · rw [← Option.some.inj h]; exact not_notANumber_fpPack _ (Nat.zero_le _)
    · split at h
      · split at h
        · exact absurd h (by simp)
        · rw [← Option.some.inj h]; exact not_notANumber_fpPack _ le_rfl
      · rw [← Option.some.inj h]; exact not_notANumber_fpPack _ (roundUnits_le _ _)

end Sys2Proof.Machine
end

