-- ==== Sys2Proof/Laws/PerInstr.lean ====
section
/-! SUPPORT. What holds of every instruction as syntax, one lemma per constructor. -/

namespace Sys2Proof

/-- An instruction splits into its opcode and the bytes after its tag and is put together from them again, and it is as long as
its opcode says (30_encoding.md R80 to R82, R87). -/
def Laws.OpcodeSplit.Statement (i : Instr) : Prop :=
  i.opcode.toInstr (BitVec.ofNat 64 (leNat i.trailing)) = i ∧ i.trailing.length = i.opcode.immBytes ∧
  (∀ m : OpcodeMap, (encode m i).length = i.opcode.length) ∧ i.wf = true

theorem Laws.OpcodeSplit.halt : Laws.OpcodeSplit.Statement .halt :=
  ⟨rfl, rfl, fun _ => rfl, rfl⟩

theorem Laws.OpcodeSplit.nop : Laws.OpcodeSplit.Statement .nop :=
  ⟨rfl, rfl, fun _ => rfl, rfl⟩

theorem Laws.OpcodeSplit.pushM1 : Laws.OpcodeSplit.Statement .pushM1 :=
  ⟨rfl, rfl, fun _ => rfl, rfl⟩

theorem Laws.OpcodeSplit.push0 : Laws.OpcodeSplit.Statement .push0 :=
  ⟨rfl, rfl, fun _ => rfl, rfl⟩

theorem Laws.OpcodeSplit.push1 : Laws.OpcodeSplit.Statement .push1 :=
  ⟨rfl, rfl, fun _ => rfl, rfl⟩

theorem Laws.OpcodeSplit.push2 : Laws.OpcodeSplit.Statement .push2 :=
  ⟨rfl, rfl, fun _ => rfl, rfl⟩

theorem Laws.OpcodeSplit.pushConst (imm64 : Value) : Laws.OpcodeSplit.Statement (.pushConst imm64) :=
  ⟨Instr.toInstr_opcode _, Instr.length_trailing _, fun _ => rfl, rfl⟩

theorem Laws.OpcodeSplit.add : Laws.OpcodeSplit.Statement .add :=
  ⟨rfl, rfl, fun _ => rfl, rfl⟩

theorem Laws.OpcodeSplit.sub : Laws.OpcodeSplit.Statement .sub :=
  ⟨rfl, rfl, fun _ => rfl, rfl⟩

theorem Laws.OpcodeSplit.mul : Laws.OpcodeSplit.Statement .mul :=
  ⟨rfl, rfl, fun _ => rfl, rfl⟩

theorem Laws.OpcodeSplit.div : Laws.OpcodeSplit.Statement .div :=
  ⟨rfl, rfl, fun _ => rfl, rfl⟩

theorem Laws.OpcodeSplit.neg : Laws.OpcodeSplit.Statement .neg :=
  ⟨rfl, rfl, fun _ => rfl, rfl⟩

theorem Laws.OpcodeSplit.loadR1 : Laws.OpcodeSplit.Statement .loadR1 :=
  ⟨rfl, rfl, fun _ => rfl, rfl⟩

theorem Laws.OpcodeSplit.loadR2 : Laws.OpcodeSplit.Statement .loadR2 :=
  ⟨rfl, rfl, fun _ => rfl, rfl⟩

theorem Laws.OpcodeSplit.storeR1 : Laws.OpcodeSplit.Statement .storeR1 :=
  ⟨rfl, rfl, fun _ => rfl, rfl⟩

theorem Laws.OpcodeSplit.storeR2 : Laws.OpcodeSplit.Statement .storeR2 :=
  ⟨rfl, rfl, fun _ => rfl, rfl⟩

theorem Laws.OpcodeSplit.print : Laws.OpcodeSplit.Statement .print :=
  ⟨rfl, rfl, fun _ => rfl, rfl⟩

end Sys2Proof
end

