-- ==== Sys2Proof/Laws/Step.lean ====
section
/-! SUPPORT. What fetching and stepping can do, said once (40_control.md R110). -/

namespace Sys2Proof.Machine

open Sys2Proof

/-! ### The window of the stream at PC -/

theorem State.imemByte_of_lt {s : State} {a : Nat} (h : a < s.len) : s.imemByte a = some (Memory.read s.imem a) :=
  if_pos h

theorem State.imemByte_of_le {s : State} {a : Nat} (h : s.len ≤ a) : s.imemByte a = none :=
  if_neg (Nat.not_lt.2 h)

theorem State.imemByte_eq_some {s : State} {a : Nat} {b : Byte} :
    s.imemByte a = some b ↔ a < s.len ∧ Memory.read s.imem a = b := by
  unfold State.imemByte
  split <;> simp_all

theorem State.window_past {s : State} (h : s.len ≤ s.pc) : s.window = [] := by
  rw [State.window, show min maxInstrBytes (s.len - s.pc) = 0 by simp [maxInstrBytes]; omega]
  rfl

/-- Within the stream, the window is the tag and up to 8 bytes after it. -/
theorem State.window_cons {s : State} (h : s.pc < s.len) :
    s.window = Memory.read s.imem s.pc :: Memory.readBytes s.imem (s.pc + 1) (min 8 (s.len - s.pc - 1)) := by
  rw [State.window, show min maxInstrBytes (s.len - s.pc) = min 8 (s.len - s.pc - 1) + 1 by simp only [maxInstrBytes]; omega]
  rfl

theorem Memory.take_readBytes (m : Memory) (a n k : Nat) (h : k ≤ n) :
    (Memory.readBytes m a n).take k = Memory.readBytes m a k := by
  induction k generalizing a n with
  | zero => rfl
  | succ k ih =>
    cases n with
    | zero => omega
    | succ n => simp [Memory.readBytes, ih (a + 1) n (by omega)]

theorem State.memRead_of_le {s : State} {a n : Nat} (h : a + n ≤ s.len) :
    s.memRead a n = some (BitVec.ofNat (8 * n) (leNat (Memory.readBytes s.imem a n))) :=
  if_pos h

/-! ### Fetching -/

/-- What a fetch can answer (40_control.md R110): past the end, an undefined tag, a cut immediate, or an instruction with all its
bytes in the stream. -/
theorem State.fetch_cases (s : State) :
    (s.len ≤ s.pc ∧ s.fetch = .fault .fetchPastEnd 0x00#8) ∨
    (∃ tag, s.imemByte s.pc = some tag ∧ s.opcodeMap.decode tag = none ∧ s.fetch = .fault .unknownOpcode tag) ∨
    (∃ tag o, s.imemByte s.pc = some tag ∧ s.opcodeMap.decode tag = some o ∧ s.len < s.pc + o.length ∧
      s.fetch = .fault .truncatedImmediate tag) ∨
    (∃ tag o, s.imemByte s.pc = some tag ∧ s.opcodeMap.decode tag = some o ∧ s.pc + o.length ≤ s.len ∧
      s.fetch = .instr (o.toInstr (BitVec.ofNat 64 (leNat (Memory.readBytes s.imem (s.pc + 1) o.immBytes))))) := by
  rcases Nat.lt_or_ge s.pc s.len with h | h
  · have hb := State.imemByte_of_lt h
    have him : ∀ o : Opcode, o.immBytes ≤ 8 := fun o => by cases o <;> decide
    rcases decodeBytes_cases s.opcodeMap (Memory.read s.imem s.pc)
        (Memory.readBytes s.imem (s.pc + 1) (min 8 (s.len - s.pc - 1))) with ⟨hd, hr⟩ | ⟨o, hd, hl, hr⟩ | ⟨o, hd, hl, hr⟩
    · exact .inr (.inl ⟨_, hb, hd, by rw [State.fetch, State.window_cons h, hr]⟩)
    · refine .inr (.inr (.inl ⟨_, o, hb, hd, ?_, by rw [State.fetch, State.window_cons h, hr]⟩))
      have := him o
      rw [Memory.length_readBytes] at hl
      unfold Opcode.length
      omega
    · have := him o
      rw [Memory.length_readBytes] at hl
      refine .inr (.inr (.inr ⟨_, o, hb, hd, by unfold Opcode.length; omega, ?_⟩))
      rw [State.fetch, State.window_cons h, hr, Memory.take_readBytes _ _ _ _ hl]
  · exact .inl ⟨h, by rw [State.fetch, State.window_past h]; rfl⟩

/-! ### The launch -/

theorem State.launchProblem_eq_none {s : State} : s.launchProblem = none ↔ launchWf s.opcodeMap s.pcw s.len = true := by
  unfold State.launchProblem launchWf
  split <;> simp_all

theorem launchWf_iff {m : OpcodeMap} {pcw len : Nat} : launchWf m pcw len = true ↔ m.wf = true ∧ len < 2 ^ pcw := by
  simp [launchWf, streamFits]

/-! ### Stepping -/

theorem step_done {s : State} (h : s.done = true) : step s = .fault .terminated := by
  unfold step
  rw [if_pos h]

/-- A running, well-launched machine steps by what it fetches. -/
theorem step_running {s : State} (h : s.done = false) (hl : launchWf s.opcodeMap s.pcw s.len = true) :
    step s = match s.fetch with
      | .instr i         => exec i s
      | .fault cause tag => .next (s.raiseFault cause tag) := by
  unfold step
  rw [if_neg (by simp [h]), State.launchProblem_eq_none.2 hl]
  try rfl

theorem step_refused {s : State} {r : Refusal} (h : s.done = false) (hl : s.launchProblem = some r) : step s = .refused r := by
  unfold step
  rw [if_neg (by simp [h]), hl]

/-- What a step that answers a next state did (40_control.md R110). -/
theorem step_cases {s t : State} (h : step s = .next t) :
    s.done = false ∧ launchWf s.opcodeMap s.pcw s.len = true ∧
    ((s.len ≤ s.pc ∧ t = s.raiseFault .fetchPastEnd 0x00#8) ∨
     (∃ tag, s.imemByte s.pc = some tag ∧ s.opcodeMap.decode tag = none ∧ t = s.raiseFault .unknownOpcode tag) ∨
     (∃ tag o, s.imemByte s.pc = some tag ∧ s.opcodeMap.decode tag = some o ∧ s.len < s.pc + o.length ∧
       t = s.raiseFault .truncatedImmediate tag) ∨
     (∃ tag i, s.imemByte s.pc = some tag ∧ s.opcodeMap.decode tag = some i.opcode ∧
       s.pc + i.opcode.length ≤ s.len ∧ exec i s = .next t)) := by
  cases hd : s.done with
  | true => rw [step_done hd] at h; exact nomatch h
  | false =>
    cases hl : s.launchProblem with
    | some r => rw [step_refused hd hl] at h; exact nomatch h
    | none =>
      have hw := State.launchProblem_eq_none.1 hl
      refine ⟨rfl, hw, ?_⟩
      rw [step_running hd hw] at h
      rcases State.fetch_cases s with ⟨h₁, hf⟩ | ⟨tag, h₁, h₂, hf⟩ | ⟨tag, o, h₁, h₂, h₃, hf⟩ | ⟨tag, o, h₁, h₂, h₃, hf⟩
      · rw [hf] at h; exact .inl ⟨h₁, (Host.Outcome.next.inj h).symm⟩
      · rw [hf] at h; exact .inr (.inl ⟨tag, h₁, h₂, (Host.Outcome.next.inj h).symm⟩)
      · rw [hf] at h; exact .inr (.inr (.inl ⟨tag, o, h₁, h₂, h₃, (Host.Outcome.next.inj h).symm⟩))
      · rw [hf] at h
        exact .inr (.inr (.inr ⟨tag, _, h₁, by rw [Opcode.opcode_toInstr]; exact h₂,
          by rw [Opcode.opcode_toInstr]; exact h₃, h⟩))

/-- A running, well-launched machine always answers a next state. -/
theorem step_next {s : State} (h : s.done = false) (hl : launchWf s.opcodeMap s.pcw s.len = true) :
    ∃ t, step s = .next t := by
  rw [step_running h hl]
  cases s.fetch with
  | instr i => exact exec_next i s
  | fault c tag => exact ⟨_, rfl⟩

/-! ### Running -/

theorem run_zero (s : State) : Host.Core.run Sys2Proof.core 0 s = .next s := rfl

/-- A run whose first step answers a next state goes on from it. -/
theorem run_succ_of_next {s t : State} (k : Nat) (h : step s = .next t) :
    Host.Core.run Sys2Proof.core (k + 1) s = Host.Core.run Sys2Proof.core k t := by
  have h' : Sys2Proof.core.step s = .next t := h
  simp only [Host.Core.run, h']

end Sys2Proof.Machine
end

