-- ==== Sys2Proof/Laws/Stack.lean ====
section
/-! SUPPORT. The stack as a list of values, and the part of it that is visible: what push and pop do to each. -/

namespace Sys2Proof.Machine

open Sys2Proof

/-! ### The stack as a list, top first -/

theorem State.stackList_congr {s t : State} (hd : s.depth = t.depth)
    (h : ∀ i : Fin 256, i.val < s.depth → s.slot i = t.slot i) (hle : s.depth ≤ 256) : s.stackList = t.stackList := by
  unfold State.stackList
  rw [hd]
  congr 1
  refine List.map_congr_left fun i hi => h _ ?_
  rw [List.mem_range] at hi
  show i % 256 < s.depth
  omega

@[simp] theorem State.length_stackList (s : State) : s.stackList.length = s.depth := by simp [State.stackList]

/-- A push puts its value in front of the list. -/
theorem State.stackList_push {s : State} (v : Value) (h : s.depth ≤ 255) :
    (s.push v).stackList = v :: s.stackList := by
  have hs : (slotOf (s.sp + 1#9)).val = s.depth := by
    rw [slotOf_val, ← State.depth]
    omega
  unfold State.stackList
  rw [State.depth_push v (by omega), List.range_succ, List.map_append, List.reverse_append]
  simp only [List.map_cons, List.map_nil, List.reverse_cons, List.reverse_nil, List.nil_append, List.cons_append]
  congr 1
  · rw [State.slot_push, if_pos]
    apply Fin.ext
    rw [hs]
    show s.depth % 256 = _
    omega
  · congr 1
    refine List.map_congr_left fun i hi => ?_
    rw [List.mem_range] at hi
    rw [State.slot_push, if_neg]
    intro hc
    have := congrArg Fin.val hc
    rw [hs] at this
    change i % 256 = s.depth at this
    omega

/-- On a stack that is not empty, the list is the top and then the list after a pop. -/
theorem State.stackList_eq_cons {s : State} (h₁ : 1 ≤ s.depth) :
    s.stackList = s.top :: s.drop.stackList := by
  have hd := State.depth_drop h₁
  have e := State.depth_toNat s
  have := s.sp.isLt
  unfold State.stackList
  rw [show s.depth = s.drop.depth + 1 by omega, List.range_succ, List.map_append, List.reverse_append]
  simp only [List.map_cons, List.map_nil, List.reverse_cons, List.reverse_nil, List.nil_append, List.cons_append]
  congr 1
  rw [State.top]
  congr 1
  apply Fin.ext
  rw [slotOf_val]
  show s.drop.depth % 256 = _
  omega

@[simp] theorem State.stackList_advance (s : State) (o : Opcode) : (s.advance o).stackList = s.stackList := rfl

@[simp] theorem State.stackList_emit (s : State) (v : Value) : (s.emit v).stackList = s.stackList := rfl

@[simp] theorem State.stackList_writeReg (s : State) (v : Value) (k : Reg) :
    (s.writeReg v k).stackList = s.stackList := by
  cases k <;> rfl

@[simp] theorem State.stackList_raiseFault (s : State) (c : Cause) (tag : Byte) :
    (s.raiseFault c tag).stackList = s.stackList := rfl

@[simp] theorem State.stackList_halt (s : State) : s.halt.stackList = s.stackList := rfl

/-! ### The visible part -/

/-- Two states have one visible part exactly when they differ in hidden slots alone (10_state.md R28). -/
theorem State.visible_eq_iff {s t : State} :
    s.visible = t.visible ↔
      t = { s with stk := t.stk } ∧ ∀ i : Fin 256, i.val < s.depth → s.slot i = t.slot i := by
  constructor
  · intro h
    simp only [State.visible, State.mk.injEq] at h
    obtain ⟨h1, h2, h3, h4, h5, h6, h7, h8, h9, h10, h11, h12⟩ := h
    have hd : s.depth = t.depth := by simp [State.depth, h2]
    refine ⟨by cases s; cases t; simp_all, fun i hi => ?_⟩
    have := congrArg (fun v : Stack => v[i]) h3
    simpa [hi, hd ▸ hi] using this
  · rintro ⟨ht, h⟩
    rw [ht]
    simp only [State.visible, State.mk.injEq, true_and, and_true]
    congr 1
    funext i
    have : ({ s with stk := t.stk } : State).depth = s.depth := rfl
    rw [this]
    split
    · rw [h i ‹_›]; rfl
    · rfl

/-- The slot of the top lies below the depth. -/
theorem State.slotOf_lt_depth {s : State} (h : 1 ≤ s.depth) : (slotOf s.sp).val < s.depth := by
  have e := State.depth_toNat s
  have := s.sp.isLt
  rw [slotOf_val]
  omega

end Sys2Proof.Machine
end

