-- ==== Sys2Proof/Machine/Assembler.lean ====
section
/-! DEFINITION. The assembler syntax of 30_encoding.md R91: one instruction a line, a mnemonic of R84 in upper case, an operand
for PUSH_CONST alone, and `;` to the end of the line a comment. Text is a list of characters. The machine never reads it. -/

namespace Sys2Proof.Machine

open Sys2Proof

/-- The mnemonic of an instruction (30_encoding.md R84). -/
def asmMnemonic : Opcode → List Char
  | .halt      => ['H', 'A', 'L', 'T']
  | .nop       => ['N', 'O', 'P']
  | .pushM1    => ['P', 'U', 'S', 'H', '_', 'M', '1']
  | .push0     => ['P', 'U', 'S', 'H', '_', '0']
  | .push1     => ['P', 'U', 'S', 'H', '_', '1']
  | .push2     => ['P', 'U', 'S', 'H', '_', '2']
  | .pushConst => ['P', 'U', 'S', 'H', '_', 'C', 'O', 'N', 'S', 'T']
  | .add       => ['A', 'D', 'D']
  | .sub       => ['S', 'U', 'B']
  | .mul       => ['M', 'U', 'L']
  | .div       => ['D', 'I', 'V']
  | .neg       => ['N', 'E', 'G']
  | .loadR1    => ['L', 'O', 'A', 'D', '_', 'R', '1']
  | .loadR2    => ['L', 'O', 'A', 'D', '_', 'R', '2']
  | .storeR1   => ['S', 'T', 'O', 'R', 'E', '_', 'R', '1']
  | .storeR2   => ['S', 'T', 'O', 'R', 'E', '_', 'R', '2']
  | .print     => ['P', 'R', 'I', 'N', 'T']

/-- The value of a digit below `base`, for bases up to 16; hexadecimal letters in either case. -/
def asmDigit (base : Nat) (c : Char) : Option Nat :=
  let n := c.toNat
  let v := if 48 ≤ n ∧ n ≤ 57 then n - 48
    else if 65 ≤ n ∧ n ≤ 70 then n - 55
    else if 97 ≤ n ∧ n ≤ 102 then n - 87
    else base
  if v < base then some v else none

/-- Read digits up to the first character that is none: the value, how many there were, and the rest. -/
def asmDigits (base : Nat) : List Char → Nat → Nat → Nat × Nat × List Char
  | [],      acc, k => (acc, k, [])
  | c :: cs, acc, k =>
    match asmDigit base c with
    | some d => asmDigits base cs (acc * base + d) (k + 1)
    | none   => (acc, k, c :: cs)

/-- A raw bit pattern after `#0x`: 1 to 16 hexadecimal digits. -/
def asmPattern (cs : List Char) : Option Value :=
  match asmDigits 16 cs 0 0 with
  | (v, k, []) => if 1 ≤ k ∧ k ≤ 16 then some (BitVec.ofNat 64 v) else none
  | (_, _, _ :: _) => none

/-- The exponent of a decimal literal: nothing, or `e` or `E`, an optional sign, and digits. Answers whether it is negative, and
its size. -/
def asmExponent : List Char → Option (Bool × Nat)
  | []      => some (false, 0)
  | c :: cs =>
    if c = 'e' ∨ c = 'E' then
      let (neg, ds) := match cs with
        | '-' :: ds => (true, ds)
        | '+' :: ds => (false, ds)
        | ds        => (false, ds)
      match asmDigits 10 ds 0 0 with
      | (v, k, [])     => if k = 0 then none else some (neg, v)
      | (_, _, _ :: _) => none
    else none

/-- A decimal floating literal, rounded to nearest even: digits, an optional point with digits after it, an optional exponent.
The digits stand for a fraction of whole numbers, which `roundUnits` rounds once. DESIGN CHOICE of the grammar, log entry 18. -/
def asmDecimal (sign : Bool) (cs : List Char) : Option Value :=
  match asmDigits 10 cs 0 0 with
  | (whole, k, rest) =>
    if k = 0 then none
    else
      let (mant, places, ok, tail) := match rest with
        | '.' :: ds =>
          match asmDigits 10 ds whole 0 with
          | (m, j, t) => (m, j, decide (j ≠ 0), t)
        | t => (whole, 0, true, t)
      match ok, asmExponent tail with
      | true, some (neg, x) =>
        let num := if neg then mant else mant * 10 ^ x
        let den := if neg then 10 ^ (places + x) else 10 ^ places
        some (fpPack sign (roundUnits (num * unitsPerOne) den))
      | _, _ => none

/-- The operand of PUSH_CONST (30_encoding.md R91): `#0x` and a pattern, or a decimal literal with an optional minus sign. -/
def asmOperand : List Char → Option Value
  | '#' :: '0' :: 'x' :: cs => asmPattern cs
  | '-' :: cs               => asmDecimal true cs
  | cs                      => asmDecimal false cs

/-- The characters of a line before its comment. -/
def asmUncomment (line : List Char) : List Char := line.takeWhile (· ≠ ';')

/-- The words of a line, parted by spaces and tabs; `word` holds the characters of the word being read, last first. -/
def asmWords : List Char → List Char → List (List Char)
  | [],      []   => []
  | [],      word => [word.reverse]
  | c :: cs, word =>
    if c = ' ' ∨ c = '\t' then
      match word with
      | [] => asmWords cs []
      | _  => word.reverse :: asmWords cs []
    else asmWords cs (c :: word)

/-- What one line of assembler text is. `blank` is a line with no word before its comment, which R91 does not mention. DESIGN
CHOICE, log entry 18. -/
inductive AsmLine where
  | blank
  | instr (i : Instr)
  | malformed
  deriving DecidableEq, Repr

/-- Read one line (30_encoding.md R91). Only PUSH_CONST takes an operand. R91 says one instruction per line and is silent on a line
with none: a blank or comment-only line is legal here. DESIGN CHOICE, log entry 18. -/
def asmLine (line : List Char) : AsmLine :=
  match asmWords (asmUncomment line) [] with
  | []           => .blank
  | name :: args =>
    match Opcode.all.find? (fun o => asmMnemonic o == name), args with
    | some .pushConst, [arg] =>
      match asmOperand arg with
      | some v => .instr (.pushConst v)
      | none   => .malformed
    | some .pushConst, _ => .malformed
    | some o, []     => .instr (o.toInstr 0#64)
    | some _, _ :: _ => .malformed
    | none, _        => .malformed

/-- The bytes of a program text, in address order, or none if a line is malformed. A blank or comment-only line gives no bytes.
DESIGN CHOICE, log entry 18. -/
def assemble (m : OpcodeMap) : List (List Char) → Option (List Byte)
  | []      => some []
  | l :: ls =>
    match asmLine l, assemble m ls with
    | .blank,     rest      => rest
    | .instr i,   some rest => some (encode m i ++ rest)
    | .instr _,   none      => none
    | .malformed, _         => none

end Sys2Proof.Machine
end

