-- ==== Sys2Proof/Tests/Slice0.lean ====
section
/-! SUPPORT. Tests. The expected results come from spec/95_test_vectors.md and from the examples of the rules, as each says; the
encodings from 30_encoding.md R81, R82 and R84. After them, for every statement with hypotheses, states and operands that meet
them together. -/

set_option Elab.async false

namespace Sys2Proof.Tests

open Sys2Proof Sys2Proof.Machine

/-! ### Small states -/

/-- A machine launched with a stream, PC at `pc`, the stack holding the values given, bottom first. -/
def at_ (stream : List Byte) (pc : Nat) (stack : List Value) : State :=
  stack.foldl State.push
    { State.launch OpcodeMap.standard 32 stream (Vector.replicate 256 0x0BAD0BAD0BAD0BAD#64) with pc := pc }

/-- A machine with an empty stream and a stack. -/
def on (stack : List Value) : State := at_ [] 0 stack

/-- A machine whose stack is full of 1.0. -/
def full (stream : List Byte) (pc : Nat) : State :=
  { at_ stream pc [] with sp := 0x0FF#9, stk := Vector.replicate 256 0x3FF0000000000000#64 }

/-- A component of the next state, if there is one. -/
def after {α : Type} (r : Host.Outcome State Fault Refusal) (f : State → α) : Option α :=
  match r with
  | .next t => some (f t)
  | _       => none

/-- The stack, bottom first, with PC, of the next state. -/
def stackPc (r : Host.Outcome State Fault Refusal) : Option (List Value × Nat) :=
  after r fun t => (t.stackList.reverse, t.pc)

/-- STATUS, FAULT_PC, PC and the stack, bottom first, of the next state. -/
def faultOf (r : Host.Outcome State Fault Refusal) : Option (BitVec 16 × Nat × Nat × List Value) :=
  after r fun t => (t.status, t.faultPc, t.pc, t.stackList.reverse)

/-! ### Well-formedness refuses the ill-formed -/

/-- Two instructions with one byte (30_encoding.md R85 (a)). -/
theorem test_wf_refuses_shared_tag :
    ({ OpcodeMap.standard with print := 0x00#8 } : OpcodeMap).distinctTags = false ∧
    ({ OpcodeMap.standard with print := 0x00#8 } : OpcodeMap).wf = false := by decide

/-- The byte 0xFF (30_encoding.md R85 (b)). -/
theorem test_wf_refuses_ff :
    ({ OpcodeMap.standard with nop := 0xFF#8 } : OpcodeMap).avoidsFF = false ∧
    ({ OpcodeMap.standard with nop := 0xFF#8 } : OpcodeMap).wf = false := by decide

/-- A stream of `2^PCW` bytes; one byte less is legal (00_scope.md R6). -/
theorem test_wf_refuses_long_stream :
    streamFits 8 256 = false ∧ streamFits 8 255 = true ∧ launchWf OpcodeMap.standard 8 256 = false := by decide

theorem test_wf_accepts_standard : OpcodeMap.standard.wf = true := by decide

/-! ### Decoding, from the encodings of 30_encoding.md -/

/-- The control family: 0x00 and 0x01. -/
theorem test_decode_control :
    decodeBytes OpcodeMap.standard [0b00000000#8] = .instr .halt [] ∧
    decodeBytes OpcodeMap.standard [0b00000001#8] = .instr .nop [] := by decide

/-- The short pushes: 0x02 to 0x05. -/
theorem test_decode_short_pushes :
    decodeBytes OpcodeMap.standard [0b00000010#8] = .instr .pushM1 [] ∧
    decodeBytes OpcodeMap.standard [0b00000011#8] = .instr .push0 [] ∧
    decodeBytes OpcodeMap.standard [0b00000100#8] = .instr .push1 [] ∧
    decodeBytes OpcodeMap.standard [0b00000101#8] = .instr .push2 [] := by decide

/-- PUSH_CONST: 0x06 and the immediate, least significant byte first (R82); the example of R124, and every byte different. -/
theorem test_decode_push_const :
    decodeBytes OpcodeMap.standard
      [0x06#8, 0x00#8, 0x00#8, 0x00#8, 0x00#8, 0x00#8, 0x00#8, 0xF0#8, 0x3F#8, 0x10#8] =
      .instr (.pushConst 0x3FF0000000000000#64) [0x10#8] ∧
    decodeBytes OpcodeMap.standard
      [0b00000110#8, 0x11#8, 0x22#8, 0x33#8, 0x44#8, 0x55#8, 0x66#8, 0x77#8, 0x88#8] =
      .instr (.pushConst 0x8877665544332211#64) [] := by decide

/-- The arithmetic family: 0x07 to 0x0B. -/
theorem test_decode_arithmetic :
    decodeBytes OpcodeMap.standard [0b00000111#8] = .instr .add [] ∧
    decodeBytes OpcodeMap.standard [0b00001000#8] = .instr .sub [] ∧
    decodeBytes OpcodeMap.standard [0b00001001#8] = .instr .mul [] ∧
    decodeBytes OpcodeMap.standard [0b00001010#8] = .instr .div [] ∧
    decodeBytes OpcodeMap.standard [0b00001011#8] = .instr .neg [] := by decide

/-- The register transfers: 0x0C to 0x0F. -/
theorem test_decode_transfer :
    decodeBytes OpcodeMap.standard [0b00001100#8] = .instr .loadR1 [] ∧
    decodeBytes OpcodeMap.standard [0b00001101#8] = .instr .loadR2 [] ∧
    decodeBytes OpcodeMap.standard [0b00001110#8] = .instr .storeR1 [] ∧
    decodeBytes OpcodeMap.standard [0b00001111#8] = .instr .storeR2 [] := by decide

/-- PRINT: 0x10. -/
theorem test_decode_output : decodeBytes OpcodeMap.standard [0b00010000#8] = .instr .print [] := by decide

/-- V-D3, V-D5, V-P11, V-D1: an unassigned tag, 0xFF, a cut immediate, no byte. -/
theorem test_decode_refuses :
    decodeBytes OpcodeMap.standard [0x11#8] = .unknownOpcode 0x11#8 ∧
    decodeBytes OpcodeMap.standard [0xFF#8, 0x00#8] = .unknownOpcode 0xFF#8 ∧
    decodeBytes OpcodeMap.standard [0x06#8, 0x00#8, 0x00#8] = .truncatedImmediate 0x06#8 ∧
    decodeBytes OpcodeMap.standard [] = .noByte := by decide

/-- V-P10: the bytes of PUSH_CONST 0.1. -/
theorem test_encode_push_const :
    encode OpcodeMap.standard (.pushConst 0x3FB999999999999A#64) =
      [0x06#8, 0x9A#8, 0x99#8, 0x99#8, 0x99#8, 0x99#8, 0x99#8, 0xB9#8, 0x3F#8] := by decide

/-- The table of 20_memory.md R60 agrees with the stack effects of 40_control.md R112 and the lengths of 30_encoding.md R87. -/
theorem test_accesses :
    ∀ o ∈ Opcode.all, (accesses o).slotReads = (stackEffect o).pops ∧ (accesses o).slotWrites = (stackEffect o).pushes ∧
      (accesses o).streamBytes = o.length := by decide

/-! ### Fetch -/

/-- V-D1, V-D2 (step 2). -/
theorem test_fetch_past_end :
    faultOf (step (at_ [] 0 [])) = some (0x000D#16, 0, 0, []) ∧
    faultOf (step (at_ [0x01#8] 1 [])) = some (0x000D#16, 1, 1, []) := by decide +kernel

/-- V-D3, V-D4 (step 2). -/
theorem test_unknown_opcode :
    faultOf (step (at_ [0x11#8] 0 [])) = some (0x1103#16, 0, 0, []) ∧
    faultOf (step (at_ [0x04#8, 0x7F#8, 0x10#8] 1 [0x3FF0000000000000#64])) =
      some (0x7F03#16, 1, 1, [0x3FF0000000000000#64]) := by decide +kernel

/-- V-P11, V-P14: TruncatedImmediate, on an empty and on a full stack. -/
theorem test_truncated_immediate :
    after (step (at_ [0x06#8, 0x00#8, 0x00#8] 0 [])) (fun t => (t.status, t.faultPc, t.sp.toInt)) =
      some (0x060B#16, 0, -1) ∧
    after (step (full [0x06#8, 0x00#8] 0)) (fun t => (t.status, t.faultPc, t.sp.toInt)) =
      some (0x060B#16, 0, 255) := by decide +kernel

/-- 40_control.md R111: no step once DONE = 1. -/
theorem test_no_step_when_done :
    step { at_ [0x01#8] 0 [] with status := 0x0001#16 } = .fault .terminated := rfl

/-! ### Control -/

/-- V-C1. -/
theorem test_halt :
    after (exec .halt (on [0x3FF0000000000000#64, 0x4000000000000000#64]))
      (fun t => (t.status, t.pc, t.faultPc, t.stackList.reverse)) =
      some (0x0001#16, 1, 0, [0x3FF0000000000000#64, 0x4000000000000000#64]) := by decide +kernel

/-- V-C2, V-C3. -/
theorem test_nop :
    after (exec .nop (full [] 4)) (fun t => (t.pc, t.sp.toInt, t.status)) = some (5, 255, 0x0000#16) ∧
    stackPc (exec .nop (on [])) = some ([], 1) := by decide +kernel

/-! ### Push -/

/-- V-P1. -/
theorem test_push_m1 : stackPc (exec .pushM1 (on [])) = some ([0xBFF0000000000000#64], 1) := by decide +kernel

/-- V-P2. -/
theorem test_push_0 : stackPc (exec .push0 (on [])) = some ([0x0000000000000000#64], 1) := by decide +kernel

/-- V-P3: from SP 3. -/
theorem test_push_1 :
    after (exec .push1 (on [1#64, 2#64, 3#64, 4#64])) (fun t => (t.sp.toInt, t.slot 4, t.slot 3)) =
      some (4, 0x3FF0000000000000#64, 4#64) := by decide +kernel

/-- V-P4: the 256th value. -/
theorem test_push_2_last_slot :
    after (exec .push2 { full [] 0 with sp := 0x0FE#9 }) (fun t => (t.sp.toInt, t.slot 255, t.slot 0)) =
      some (255, 0x4000000000000000#64, 0x3FF0000000000000#64) := by decide +kernel

/-- V-P5: the 257th value. -/
theorem test_push_2_overflow :
    after (exec .push2 (full [] 7)) (fun t => (t.status, t.faultPc, t.sp.toInt, t.pc)) =
      some (0x0509#16, 7, 255, 7) := by decide +kernel

/-- V-P8, V-D8: a signalling NaN, and an immediate of PRINT tags, from the stream. -/
theorem test_push_const :
    stackPc (step (at_ [0x06#8, 0x01#8, 0x00#8, 0x00#8, 0x00#8, 0x00#8, 0x00#8, 0xF0#8, 0x7F#8] 0 [])) =
      some ([0x7FF0000000000001#64], 9) ∧
    stackPc (step (at_ [0x06#8, 0x10#8, 0x10#8, 0x10#8, 0x10#8, 0x10#8, 0x10#8, 0x10#8, 0x10#8, 0x00#8] 0 [])) =
      some ([0x1010101010101010#64], 9) := by decide +kernel

/-- V-P13: the immediate is complete and the stack is full. -/
theorem test_push_const_overflow :
    after (step (full [0x06#8, 1#8, 2#8, 3#8, 4#8, 5#8, 6#8, 7#8, 8#8] 0)) (fun t => (t.status, t.pc)) =
      some (0x0609#16, 0) := by decide +kernel

/-! ### Arithmetic -/

/-- V-A1 to V-A5, V-A7. -/
theorem test_add :
    stackPc (exec .add (on [0x3FF0000000000000#64, 0x4000000000000000#64])) = some ([0x4008000000000000#64], 1) ∧
    fadd64 0x3FB999999999999A#64 0x3FC999999999999A#64 = 0x3FD3333333333334#64 ∧
    fadd64 0x0000000000000000#64 0x8000000000000000#64 = 0x0000000000000000#64 ∧
    fadd64 0x8000000000000000#64 0x8000000000000000#64 = 0x8000000000000000#64 ∧
    fadd64 0x7FEFFFFFFFFFFFFF#64 0x7FEFFFFFFFFFFFFF#64 = 0x7FF0000000000000#64 ∧
    fadd64 0x0000000000000001#64 0x0000000000000001#64 = 0x0000000000000002#64 := by decide +kernel

/-- V-A6, and V-A32: an invalid operation, and one value short. -/
theorem test_add_corners :
    fadd64 0x7FF0000000000000#64 0xFFF0000000000000#64 =
      nanOf .add 0x7FF0000000000000#64 0xFFF0000000000000#64 ∧
    faultOf (exec .add (at_ [] 7 [0x3FF0000000000000#64])) = some (0x0707#16, 7, 7, [0x3FF0000000000000#64]) :=
  ⟨rfl, by decide +kernel⟩

/-- V-A8 to V-A12. -/
theorem test_sub :
    stackPc (exec .sub (on [0x4000000000000000#64, 0x3FF0000000000000#64])) = some ([0x3FF0000000000000#64], 1) ∧
    fsub64 0x3FF0000000000000#64 0x4000000000000000#64 = 0xBFF0000000000000#64 ∧
    fsub64 0x8000000000000000#64 0x0000000000000000#64 = 0x8000000000000000#64 ∧
    fsub64 0x3FF0000000000000#64 0x3FF0000000000000#64 = 0x0000000000000000#64 ∧
    fsub64 0x3FF0000000000000#64 0x3FB999999999999A#64 = 0x3FECCCCCCCCCCCCD#64 := by decide +kernel

/-- V-A13 to V-A15, V-A34. -/
theorem test_mul :
    stackPc (exec .mul (on [0x4000000000000000#64, 0xBFF0000000000000#64])) = some ([0xC000000000000000#64], 1) ∧
    fmul64 0x8000000000000000#64 0x4014000000000000#64 = 0x8000000000000000#64 ∧
    fmul64 0x0000000000000001#64 0x3FE0000000000000#64 = 0x0000000000000000#64 ∧
    fmul64 0x4018000000000000#64 0x4018000000000000#64 = 0x4042000000000000#64 := by decide +kernel

/-- V-A16. -/
theorem test_mul_invalid :
    fmul64 0x0000000000000000#64 0x7FF0000000000000#64 =
      nanOf .mul 0x0000000000000000#64 0x7FF0000000000000#64 := rfl

/-- V-A21 to V-A25. -/
theorem test_div :
    stackPc (exec .div (on [0xBFF0000000000000#64, 0x4000000000000000#64])) = some ([0xBFE0000000000000#64], 1) ∧
    fdiv64 0x3FF0000000000000#64 0x4008000000000000#64 = 0x3FD5555555555555#64 ∧
    fdiv64 0x3FF0000000000000#64 0x0000000000000001#64 = 0x7FF0000000000000#64 ∧
    fdiv64 0x3FF0000000000000#64 0x7FF0000000000000#64 = 0x0000000000000000#64 ∧
    fdiv64 0xBFF0000000000000#64 0x7FF0000000000000#64 = 0x8000000000000000#64 := by decide +kernel

/-- V-A18, V-A19, V-A20: the divisors -0 and +0, and one value that is a zero. -/
theorem test_div_faults :
    faultOf (exec .div (at_ [] 2 [0x3FF0000000000000#64, 0x8000000000000000#64])) =
      some (0x0A05#16, 2, 2, [0x3FF0000000000000#64, 0x8000000000000000#64]) ∧
    faultOf (exec .div (at_ [] 2 [0x7FF8000000000000#64, 0x0000000000000000#64])) =
      some (0x0A05#16, 2, 2, [0x7FF8000000000000#64, 0x0000000000000000#64]) ∧
    faultOf (exec .div (at_ [] 2 [0x0000000000000000#64])) = some (0x0A07#16, 2, 2, [0x0000000000000000#64]) := by
  decide +kernel

/-- V-A27, V-A29 to V-A31. -/
theorem test_neg :
    stackPc (exec .neg (on [0x4004000000000000#64])) = some ([0xC004000000000000#64], 1) ∧
    fneg64 0x8000000000000000#64 = 0x0000000000000000#64 ∧
    fneg64 0x7FF8000000000000#64 = 0xFFF8000000000000#64 ∧
    fneg64 0x7FF0000000000001#64 = 0xFFF0000000000001#64 := by decide +kernel

/-- V-A33. -/
theorem test_neg_underflow : faultOf (exec .neg (at_ [] 3 [])) = some (0x0B07#16, 3, 3, []) := by decide +kernel

/-! ### Register transfer -/

/-- V-R1, V-R4. -/
theorem test_load_r1 :
    stackPc (exec .loadR1 (on [])) = some ([0x0000000000000000#64], 1) ∧
    after (exec .loadR1 { on [0x4008000000000000#64] with r1 := 0x4008000000000000#64 })
      (fun t => (t.stackList, t.r1)) =
      some ([0x4008000000000000#64, 0x4008000000000000#64], 0x4008000000000000#64) := by decide +kernel

/-- V-R3 (step 2), V-R6. -/
theorem test_load_r2 :
    stackPc (exec .loadR2 { on [] with r1 := 0x4000000000000000#64 }) = some ([0x0000000000000000#64], 1) ∧
    after (exec .loadR2 (full [] 5)) (fun t => (t.status, t.faultPc, t.sp.toInt)) = some (0x0D09#16, 5, 255) := by
  decide +kernel

/-- V-R3 (step 1), V-R5. -/
theorem test_store_r1 :
    after (exec .storeR1 (on [0x4000000000000000#64])) (fun t => (t.r1, t.r2, t.stackList)) =
      some (0x4000000000000000#64, 0x0000000000000000#64, []) ∧
    after (exec .storeR1 { on [] with r1 := 5#64 }) (fun t => (t.status, t.r1)) = some (0x0E07#16, 5#64) := by
  decide +kernel

/-- V-R2 (step 1). -/
theorem test_store_r2 :
    after (exec .storeR2 (on [0x7FF4000000000000#64])) (fun t => (t.r1, t.r2, t.stackList)) =
      some (0x0000000000000000#64, 0x7FF4000000000000#64, []) := by decide +kernel

/-! ### Output -/

/-- V-O2, V-O3 (step 2), V-O4. -/
theorem test_print :
    after (exec .print (on [0x7FF8000000000001#64])) (fun t => (t.out, t.stackList)) =
      some ([0x7FF8000000000001#64], []) ∧
    after (exec .print { on [0x3FF0000000000000#64] with out := [0x4000000000000000#64] }) (fun t => t.out) =
      some [0x4000000000000000#64, 0x3FF0000000000000#64] ∧
    after (exec .print { on [] with out := [7#64] }) (fun t => (t.status, t.out)) = some (0x1007#16, [7#64]) := by
  decide +kernel

/-! ### The assembler syntax -/

/-- 30_encoding.md R91 and V-P10: a raw pattern, a decimal literal that rounds, a comment. -/
theorem test_assembler :
    asmLine ['P', 'U', 'S', 'H', '_', 'C', 'O', 'N', 'S', 'T', ' ', '#', '0', 'x', '3', 'F', 'F', '0', '0', '0', '0', '0',
      '0', '0', '0', '0', '0', '0', '0', '0'] = .instr (.pushConst 0x3FF0000000000000#64) ∧
    asmLine ['P', 'U', 'S', 'H', '_', 'C', 'O', 'N', 'S', 'T', ' ', '0', '.', '1'] =
      .instr (.pushConst 0x3FB999999999999A#64) ∧
    asmLine ['N', 'E', 'G', ' ', ';', ' ', 'x'] = .instr .neg ∧
    asmLine ['N', 'E', 'G', ' ', '1'] = .malformed := by decide +kernel

/-! ### Witnesses: states and operands that meet the hypotheses of each statement

`mid`, `atEnd` and the others are states of runs; `other` is an opcode map of 30_encoding.md R85 that is not the default one. -/

/-- A map that meets 30_encoding.md R85: PRINT and HALT exchanged. -/
def other : OpcodeMap := { OpcodeMap.standard with halt := 0x10#8, print := 0x00#8 }

/-- `04 05 06 .. 10`: at the PUSH_CONST of 1.0 that ends one byte before the end of the stream. -/
def stream : List Byte := [0x04#8, 0x05#8, 0x06#8, 0x00#8, 0x00#8, 0x00#8, 0x00#8, 0x00#8, 0x00#8, 0xF0#8, 0x3F#8, 0x10#8]

/-- Running at the PUSH_CONST of `stream`. -/
def mid : State := at_ stream 2 [0x3FF0000000000000#64, 0x4000000000000000#64]

/-- Running at the end of `stream`, the stack empty. -/
def atEnd : State := at_ stream 12 []

/-- Running at a byte that is no instruction's. -/
def atUnknown : State := at_ [0x11#8] 0 []

/-- Running at a PUSH_CONST one byte short, the stack full. -/
def atTruncated : State := full [0x06#8, 1#8, 2#8, 3#8, 4#8, 5#8, 6#8, 7#8] 0

/-- Running at a DIV with one value, a zero. -/
def atUnderflow : State := at_ [0x0A#8] 0 [0x0000000000000000#64]

/-- Running at a PUSH_2, the stack full. -/
def atOverflow : State := full [0x05#8] 0

/-- Running at a DIV whose divisor is -0. -/
def atZeroDivisor : State := at_ [0x0A#8] 0 [0x3FF0000000000000#64, 0x8000000000000000#64]

/-- Terminated by an unknown opcode. -/
def faulted : State := { atUnknown with status := 0x1103#16 }

/-- Terminated by HALT. -/
def halted : State := { at_ [0x00#8] 1 [0x3FF0000000000000#64] with status := 0x0001#16 }

theorem mid_inv : RunInv mid := by constructor <;> decide +kernel
theorem atEnd_inv : RunInv atEnd := by constructor <;> decide +kernel
theorem atUnknown_inv : RunInv atUnknown := by constructor <;> decide +kernel
theorem atTruncated_inv : RunInv atTruncated := by constructor <;> decide +kernel
theorem atUnderflow_inv : RunInv atUnderflow := by constructor <;> decide +kernel
theorem atOverflow_inv : RunInv atOverflow := by constructor <;> decide +kernel
theorem atZeroDivisor_inv : RunInv atZeroDivisor := by constructor <;> decide +kernel
theorem faulted_inv : RunInv faulted := by constructor <;> decide +kernel
theorem halted_inv : RunInv halted := by constructor <;> decide +kernel

/-- A step with a next state, from what can be decided of it. -/
theorem next_of_after {α : Type} [DecidableEq α] {r : Host.Outcome State Fault Refusal} {f : State → α} {v : α}
    (h : after r f = some v) : ∃ t, r = .next t ∧ f t = v := by
  cases r with
  | next t => exact ⟨t, rfl, Option.some.inj h⟩
  | fault _ => exact nomatch h
  | refused _ => exact nomatch h

theorem witness_InvariantHoldsAtEveryLaunch :
    launchWf other 3 7 = true ∧ launchWf other 3 0 = true ∧ RunInv faulted := ⟨by decide, by decide, faulted_inv⟩

theorem witness_StepKeepsTheInvariant :
    (RunInv mid ∧ ∃ t, step mid = .next t ∧ t.done = false) ∧
    (RunInv atOverflow ∧ ∃ t, step atOverflow = .next t ∧ t.done = true) :=
  ⟨⟨mid_inv, next_of_after (by decide +kernel)⟩, ⟨atOverflow_inv, next_of_after (by decide +kernel)⟩⟩

theorem witness_HostResetGivesTheResetValues :
    atUnknown.imem = faulted.imem ∧ atUnknown.len = faulted.len ∧ atUnknown.opcodeMap = faulted.opcodeMap ∧
    atUnknown.pcw = faulted.pcw ∧ atUnknown.status ≠ faulted.status := by decide +kernel

theorem witness_RunningStepAnswersNext : RunInv atEnd ∧ atEnd.done = false := ⟨atEnd_inv, by decide +kernel⟩

/-- Each clause: terminated; a bad map; a stream one byte too long. -/
theorem witness_StepStopsOnlyWhenDoneOrBadlyLaunched :
    halted.done = true ∧
    (({ mid with opcodeMap := { other with nop := 0xFF#8 } } : State).done = false ∧
      ({ mid with opcodeMap := { other with nop := 0xFF#8 } } : State).opcodeMap.wf = false) ∧
    (({ mid with pcw := 3, len := 8 } : State).done = false ∧
      ({ mid with pcw := 3, len := 8 } : State).opcodeMap.wf = true ∧
      2 ^ ({ mid with pcw := 3, len := 8 } : State).pcw ≤ ({ mid with pcw := 3, len := 8 } : State).len) := by
  decide +kernel

theorem witness_EveryRunTerminatesWithinStreamLength : RunInv mid ∧ RunInv halted := ⟨mid_inv, halted_inv⟩

theorem witness_StepRunsTheDecodedInstruction :
    mid.done = false ∧ launchWf mid.opcodeMap mid.pcw mid.len = true ∧
    decodeBytes mid.opcodeMap mid.window = .instr (.pushConst 0x3FF0000000000000#64) [] := by decide +kernel

theorem witness_StepRunsTheEncodedInstruction :
    mid.done = false ∧ launchWf mid.opcodeMap mid.pcw mid.len = true ∧
    ∀ (k : Nat) (h : k < (encode mid.opcodeMap (.pushConst 0x3FF0000000000000#64)).length),
      mid.imemByte (mid.pc + k) = some (encode mid.opcodeMap (.pushConst 0x3FF0000000000000#64))[k] := by
  decide +kernel

/-- From reset, and at the last PC with room for the longest instruction. -/
theorem witness_WithFetchWordRunsThatInstruction :
    (State.reset.done = false ∧ State.reset.opcodeMap = OpcodeMap.standard ∧ Memory.wf State.reset.imem = true ∧
      State.reset.len < 2 ^ State.reset.pcw ∧ State.reset.pc + 9 < 2 ^ State.reset.pcw ∧
      decodeTableWord 8 0x07 = some .add) ∧
    (({ mid with pcw := 4, pc := 6 } : State).len < 2 ^ 4 ∧ ({ mid with pcw := 4, pc := 6 } : State).pc + 9 < 2 ^ 4) := by
  decide +kernel

theorem witness_DecodeOfEncode : other.wf = true ∧ (Instr.pushConst 0xFFFFFFFFFFFFFFFF#64).wf = true := by decide

theorem witness_EncodeOfDecode :
    decodeBytes other [0x06#8, 0xFF#8, 0x00#8, 0x00#8, 0x00#8, 0x00#8, 0x00#8, 0x00#8, 0x80#8, 0x07#8] =
      .instr (.pushConst 0x80000000000000FF#64) [0x07#8] := by decide

/-- Each side of the clauses: 0x10 is HALT's byte in this map, 0x11 is the first that is none's. -/
theorem witness_TagsDecodeByTheOpcodeMap :
    (other.wf = true ∧ other.tag .halt = 0x10#8) ∧ (∀ o ∈ Opcode.all, other.tag o ≠ 0x11#8) ∧
    0x11 ≤ (0x11#8).toNat ∧ ¬0x11 ≤ (0x10#8).toNat := by decide

/-- Seven bytes after the tag, and eight. -/
theorem witness_LengthIsToldFromTheTag :
    other.wf = true ∧ Opcode.print ≠ .pushConst ∧ (List.replicate 7 (0x06#8 : Byte)).length < 8 ∧
    8 ≤ (List.replicate 8 (0x06#8 : Byte)).length := by decide

theorem witness_EncodingsHaveFormatBOrI :
    Instr.print.opcode ≠ .pushConst ∧ Instr.pushConst 5#64 = .pushConst 5#64 ∧ (7 : Nat) < 8 := by decide

/-- The last read that is defined, and the first that is not. -/
theorem witness_MemReadIsLittleEndian : mid.pc + 1 + 9 ≤ mid.len ∧ mid.len < mid.pc + 1 + 10 := by decide +kernel

theorem witness_FetchPastEndFaults :
    atEnd.done = false ∧ launchWf atEnd.opcodeMap atEnd.pcw atEnd.len = true ∧ atEnd.len ≤ atEnd.pc ∧
    atEnd.pc ≤ atEnd.len := by decide +kernel

theorem witness_UnknownOpcodeFaults :
    atUnknown.done = false ∧ launchWf atUnknown.opcodeMap atUnknown.pcw atUnknown.len = true ∧
    atUnknown.imemByte atUnknown.pc = some 0x11#8 ∧ atUnknown.opcodeMap = OpcodeMap.standard ∧ 0x11 ≤ (0x11#8).toNat ∧
    ∀ o : Opcode, atUnknown.opcodeMap.tag o ≠ 0x11#8 :=
  ⟨by decide +kernel, by decide +kernel, by decide +kernel, by decide +kernel, by decide,
   fun o => by cases o <;> decide +kernel⟩

/-- One byte short, on a full stack. -/
theorem witness_TruncatedImmediateFaults :
    atTruncated.done = false ∧ launchWf atTruncated.opcodeMap atTruncated.pcw atTruncated.len = true ∧
    atTruncated.imemByte atTruncated.pc = some atTruncated.opcodeMap.pushConst ∧
    atTruncated.len = atTruncated.pc + 8 := by decide +kernel

/-- One value for two, and none for one. -/
theorem witness_StackUnderflowFaults :
    (atUnderflow.spInRange ∧ atUnderflow.sp.toInt + 1 = 1) ∧ ((on []).spInRange ∧ (on []).sp.toInt + 1 = 0) := by
  unfold State.spInRange
  decide +kernel

theorem witness_StackOverflowFaults :
    atOverflow.sp.toInt = 255 ∧ atOverflow.spInRange ∧ atOverflow.cause ≠ 4#3 ∧
    ∃ t, exec .push2 atOverflow = .next t ∧ t.cause = 4#3 :=
  ⟨by decide +kernel, by unfold State.spInRange; decide +kernel, by decide +kernel, next_of_after (by decide +kernel)⟩

/-- Both zeros, at the smallest and at the largest depth. -/
theorem witness_DivisionByZeroFaults :
    (1 ≤ atZeroDivisor.sp.toInt ∧ atZeroDivisor.sp.toInt ≤ 255 ∧ atZeroDivisor.sp.toInt = 1 ∧
      atZeroDivisor.stackAt atZeroDivisor.sp.toInt = 0x8000000000000000#64) ∧
    (((full [] 0).setSlot 255 0#64).sp.toInt = 255 ∧
      ((full [] 0).setSlot 255 0#64).stackAt 255 = 0x0000000000000000#64) := by decide +kernel

/-- Each clause, in the order of R220, where two causes meet the one that wins; then a step that does not fault. -/
theorem witness_FaultPriority :
    (RunInv atEnd ∧ atEnd.done = false ∧ atEnd.len ≤ atEnd.pc ∧ ∃ t, step atEnd = .next t ∧ t.cause = 6#3) ∧
    (RunInv atUnknown ∧ atUnknown.done = false ∧ ∃ t, step atUnknown = .next t ∧ t.cause = 1#3) ∧
    (RunInv atTruncated ∧ atTruncated.done = false ∧ ∃ t, step atTruncated = .next t ∧ t.cause = 5#3) ∧
    (RunInv atUnderflow ∧ atUnderflow.done = false ∧ ∃ t, step atUnderflow = .next t ∧ t.cause = 3#3) ∧
    (RunInv atOverflow ∧ atOverflow.done = false ∧ ∃ t, step atOverflow = .next t ∧ t.cause = 4#3) ∧
    (RunInv atZeroDivisor ∧ atZeroDivisor.done = false ∧ ∃ t, step atZeroDivisor = .next t ∧ t.cause = 2#3) ∧
    (RunInv mid ∧ mid.done = false ∧ ∃ t, step mid = .next t ∧ t.cause = 0#3) :=
  ⟨⟨atEnd_inv, by decide +kernel, by decide +kernel, next_of_after (by decide +kernel)⟩,
   ⟨atUnknown_inv, by decide +kernel, next_of_after (by decide +kernel)⟩,
   ⟨atTruncated_inv, by decide +kernel, next_of_after (by decide +kernel)⟩,
   ⟨atUnderflow_inv, by decide +kernel, next_of_after (by decide +kernel)⟩,
   ⟨atOverflow_inv, by decide +kernel, next_of_after (by decide +kernel)⟩,
   ⟨atZeroDivisor_inv, by decide +kernel, next_of_after (by decide +kernel)⟩,
   ⟨mid_inv, by decide +kernel, next_of_after (by decide +kernel)⟩⟩

theorem witness_FaultChangesOnlyStatusAndFaultPc :
    RunInv atZeroDivisor ∧ atZeroDivisor.done = false ∧ ∃ t, step atZeroDivisor = .next t ∧ t.faulted :=
  ⟨atZeroDivisor_inv, by decide +kernel, by
    obtain ⟨t, h, hf⟩ := next_of_after (r := step atZeroDivisor) (f := fun t => (t.done, t.cause)) (v := (true, 2#3))
      (by decide +kernel)
    simp only [Prod.mk.injEq] at hf
    exact ⟨t, h, hf.1, by rw [hf.2]; decide⟩⟩

/-- Running, halted, faulted. -/
theorem witness_ExitStatusIsTheCause :
    (RunInv mid ∧ mid.done = false) ∧ (RunInv halted ∧ halted.done = true ∧ halted.cause = 0#3) ∧
    (RunInv faulted ∧ faulted.done = true ∧ faulted.cause = 1#3) :=
  ⟨⟨mid_inv, by decide +kernel⟩, ⟨halted_inv, by decide +kernel⟩, ⟨faulted_inv, by decide +kernel⟩⟩

/-- The empty and the full stack: the premise of HALT, NOP, the list machine and the frames. -/
theorem witness_HaltTerminatesCleanly :
    ((on []).spInRange ∧ (on []).sp.toInt = -1) ∧ ((full [] 0).spInRange ∧ (full [] 0).sp.toInt = 255) := by
  unfold State.spInRange
  decide +kernel

theorem witness_NopOnlyMovesPc :
    ((on []).spInRange ∧ (on []).sp.toInt = -1) ∧ ((full [] 0).spInRange ∧ (full [] 0).sp.toInt = 255) :=
  witness_HaltTerminatesCleanly

/-- The empty stack, one free slot, and none. -/
theorem witness_ShortPushesPushTheirConstants :
    ((on []).spInRange ∧ (on []).sp.toInt = -1) ∧
    (({ full [] 0 with sp := 0x0FE#9 } : State).spInRange ∧ ({ full [] 0 with sp := 0x0FE#9 } : State).sp.toInt = 254) ∧
    ((full [] 0).spInRange ∧ (full [] 0).sp.toInt = 255) := by
  unfold State.spInRange
  decide +kernel

/-- The immediate cut, whole on a full stack, and whole with room, ending at the last byte of the stream too. -/
theorem witness_PushConstPushesTheStreamImmediate :
    (atTruncated.done = false ∧ launchWf atTruncated.opcodeMap atTruncated.pcw atTruncated.len = true ∧
      atTruncated.imemByte atTruncated.pc = some atTruncated.opcodeMap.pushConst ∧ atTruncated.spInRange ∧
      atTruncated.len < atTruncated.pc + 9) ∧
    (({ atTruncated with len := 9 } : State).imemByte 0 = some 0x06#8 ∧ ({ atTruncated with len := 9 } : State).pc + 9 ≤ 9 ∧
      ({ atTruncated with len := 9 } : State).sp.toInt = 255) ∧
    (mid.done = false ∧ launchWf mid.opcodeMap mid.pcw mid.len = true ∧
      mid.imemByte mid.pc = some mid.opcodeMap.pushConst ∧ mid.spInRange ∧ mid.pc + 9 ≤ mid.len ∧ mid.sp.toInt ≤ 254) ∧
    ({ mid with len := 11 } : State).pc + 9 = ({ mid with len := 11 } : State).len := by
  unfold State.spInRange
  decide +kernel

theorem witness_PushConstPushesEveryPattern :
    -1 ≤ mid.sp.toInt ∧ mid.sp.toInt ≤ 254 ∧ -1 ≤ atEnd.sp.toInt ∧ atEnd.sp.toInt = -1 := by decide +kernel

theorem witness_BinaryOperationsReplaceTheirOperands :
    (1 ≤ mid.sp.toInt ∧ mid.sp.toInt ≤ 255 ∧ mid.sp.toInt = 1 ∧ ¬SignedZero (mid.stackAt mid.sp.toInt)) ∧
    (full [] 0).sp.toInt = 255 := by
  unfold SignedZero
  decide +kernel

/-- One value; a zero on top; a NaN on top. -/
theorem witness_DivFaultsOrReplacesItsOperands :
    (atUnderflow.spInRange ∧ atUnderflow.sp.toInt = 0) ∧
    (atZeroDivisor.spInRange ∧ 1 ≤ atZeroDivisor.sp.toInt ∧
      atZeroDivisor.stackAt atZeroDivisor.sp.toInt = 0x8000000000000000#64) ∧
    ((on [0x3FF0000000000000#64, 0x7FF8000000000000#64]).spInRange ∧
      (on [0x3FF0000000000000#64, 0x7FF8000000000000#64]).sp.toInt = 1 ∧
      (on [0x3FF0000000000000#64, 0x7FF8000000000000#64]).stackAt 1 = 0x7FF8000000000000#64) := by
  unfold State.spInRange
  decide +kernel

/-- No value, one, and 256. -/
theorem witness_NegFlipsTheSignBit :
    ((on []).spInRange ∧ (on []).sp.toInt = -1) ∧ ((on [5#64]).spInRange ∧ (on [5#64]).sp.toInt = 0) ∧
    ((full [] 0).spInRange ∧ (full [] 0).sp.toInt = 255) := by
  unfold State.spInRange
  decide +kernel

theorem witness_LoadsPushTheRegister :
    ((on []).spInRange ∧ (on []).sp.toInt = -1) ∧
    (({ full [] 0 with sp := 0x0FE#9 } : State).spInRange ∧ ({ full [] 0 with sp := 0x0FE#9 } : State).sp.toInt = 254) ∧
    ((full [] 0).spInRange ∧ (full [] 0).sp.toInt = 255) := witness_ShortPushesPushTheirConstants

theorem witness_StoresPopIntoTheRegister :
    ((on []).spInRange ∧ (on []).sp.toInt = -1) ∧ ((on [5#64]).spInRange ∧ (on [5#64]).sp.toInt = 0) ∧
    ((full [] 0).spInRange ∧ (full [] 0).sp.toInt = 255) := witness_NegFlipsTheSignBit

theorem witness_PrintEmitsTheTop :
    ((on []).spInRange ∧ (on []).sp.toInt = -1) ∧ ((on [5#64]).spInRange ∧ (on [5#64]).sp.toInt = 0) ∧
    ((full [] 0).spInRange ∧ (full [] 0).sp.toInt = 255) := witness_NegFlipsTheSignBit

theorem witness_PushConstThenPrintRoundTrips :
    (-1 ≤ (on []).sp.toInt ∧ (on []).sp.toInt ≤ 254) ∧ ({ full [] 0 with sp := 0x0FE#9 } : State).sp.toInt = 254 := by
  decide +kernel

theorem witness_StoreThenLoadRoundTrips :
    (0 ≤ (on [5#64]).sp.toInt ∧ (on [5#64]).sp.toInt ≤ 255) ∧ (full [] 0).sp.toInt = 255 := by decide +kernel

/-! #### The FP ALU -/

/-- 1.0 and -1.0, whose sum is an exact zero; the largest finite value, whose double overflows; the smallest subnormal. -/
theorem witness_AddIsCorrectlyRounded :
    FiniteValue 0x3FF0000000000000#64 ∧ FiniteValue 0xBFF0000000000000#64 ∧ FiniteValue 0x7FEFFFFFFFFFFFFF#64 ∧
    FiniteValue 0x0000000000000001#64 ∧ realValue 0x3FF0000000000000#64 + realValue 0xBFF0000000000000#64 = 0 := by
  refine ⟨by unfold FiniteValue; decide, by unfold FiniteValue; decide, by unfold FiniteValue; decide,
    by unfold FiniteValue; decide, ?_⟩
  have h : fpInt 0x3FF0000000000000#64 + fpInt 0xBFF0000000000000#64 = 0 := by decide +kernel
  rw [realValue_eq, realValue_eq, ← add_mul, ← Int.cast_add, h, Int.cast_zero, zero_mul]

theorem witness_SubIsCorrectlyRounded :
    FiniteValue 0x8000000000000000#64 ∧ FiniteValue 0x0000000000000000#64 ∧
    realValue 0x8000000000000000#64 - realValue 0x0000000000000000#64 = 0 := by
  refine ⟨by unfold FiniteValue; decide, by unfold FiniteValue; decide, ?_⟩
  have h : fpInt 0x8000000000000000#64 - fpInt 0x0000000000000000#64 = 0 := by decide +kernel
  rw [realValue_eq, realValue_eq, ← sub_mul, ← Int.cast_sub, h, Int.cast_zero, zero_mul]

theorem witness_MulIsCorrectlyRounded : FiniteValue 0x0000000000000001#64 ∧ FiniteValue 0x3FE0000000000000#64 := by
  unfold FiniteValue
  decide

theorem witness_DivIsCorrectlyRounded :
    FiniteValue 0x3FF0000000000000#64 ∧ FiniteValue 0x0000000000000001#64 ∧ ¬SignedZero 0x0000000000000001#64 := by
  unfold FiniteValue SignedZero
  decide

/-- Each clause: a finite operand that is no zero, the same infinity, the other one. -/
theorem witness_InfinitiesFollowTheSignRules :
    InfiniteValue 0x7FF0000000000000#64 ∧ InfiniteValue 0xFFF0000000000000#64 ∧
    FiniteValue 0x4000000000000000#64 ∧ ¬SignedZero 0x4000000000000000#64 ∧
    fneg64 0x7FF0000000000000#64 = 0xFFF0000000000000#64 := by
  unfold InfiniteValue FiniteValue SignedZero
  decide

/-- Each clause: a NaN operand, an invalid operation of each kind, and a result that is a NaN. -/
theorem witness_NanResultsAreQuietNans :
    (¬SignedZero 0x7FF8000000000000#64 ∧ NotANumber 0x7FF8000000000000#64 ∧ NotANumber 0xFFF0000000000001#64) ∧
    InvalidOperation .add 0x7FF0000000000000#64 0xFFF0000000000000#64 ∧
    InvalidOperation .sub 0x7FF0000000000000#64 0x7FF0000000000000#64 ∧
    InvalidOperation .mul 0x8000000000000000#64 0x7FF0000000000000#64 ∧
    (¬SignedZero 0xFFF0000000000000#64 ∧ InvalidOperation .div 0x7FF0000000000000#64 0xFFF0000000000000#64) ∧
    NotANumber (fpOp .add 0x7FF8000000000000#64 0x3FF0000000000000#64) := by
  refine ⟨by unfold SignedZero NotANumber; decide, by unfold InvalidOperation InfiniteValue; decide,
    by unfold InvalidOperation InfiniteValue; decide, by unfold InvalidOperation InfiniteValue SignedZero; decide,
    by unfold SignedZero InvalidOperation InfiniteValue; decide, ?_⟩
  exact notANumber_nanOf .add _ _

theorem witness_IsZeroHoldsOfTheTwoZeros :
    FiniteValue 0x8000000000000000#64 ∧ FiniteValue 0x0000000000000001#64 ∧ InfiniteValue 0xFFF0000000000000#64 ∧
    NotANumber 0x7FF0000000000001#64 := by
  unfold FiniteValue InfiniteValue NotANumber
  decide

theorem witness_NegIsTheAdditiveInverse : FiniteValue 0x8000000000000000#64 ∧ FiniteValue 0x7FEFFFFFFFFFFFFF#64 := by
  unfold FiniteValue
  decide

theorem witness_AddAndMulCommute :
    ¬NotANumber (fadd64 0x3FF0000000000000#64 0x4000000000000000#64) ∧
    ¬NotANumber (fmul64 0x3FF0000000000000#64 0x4000000000000000#64) := by
  rw [← isNaN_iff, ← isNaN_iff]
  decide +kernel

/-! #### The whole machine -/

theorem witness_OnlyTransfersTouchRegisters :
    (Instr.add ≠ Reg.r1.load ∧ Instr.add ≠ Reg.r1.store) ∧ (Instr.loadR2 ≠ Reg.r1.load ∧ Instr.storeR2 ≠ Reg.r1.store) ∧
    (Instr.loadR1 ≠ Reg.r1.store ∧ ∃ t, exec .loadR1 mid = .next t ∧ t.sp.toInt = 2) :=
  ⟨by decide, by decide, by decide, next_of_after (by decide +kernel)⟩

/-- A PRINT that completes, one that faults, and a step of another instruction. -/
theorem witness_OnlyPrintAppendsToOut :
    ((∃ t, step (at_ [0x10#8] 0 [7#64]) = .next t ∧ t.done = false) ∧
      (at_ [0x10#8] 0 [7#64]).imemByte (at_ [0x10#8] 0 [7#64]).pc = some (at_ [0x10#8] 0 [7#64]).opcodeMap.print) ∧
    (∃ t, step (at_ [0x10#8] 0 []) = .next t ∧ (t.done, t.cause) = (true, 3#3)) ∧
    ((∃ t, step mid = .next t ∧ t.out = []) ∧ mid.imemByte mid.pc ≠ some mid.opcodeMap.print) :=
  ⟨⟨next_of_after (by decide +kernel), by decide +kernel⟩, next_of_after (by decide +kernel),
   next_of_after (by decide +kernel), by decide +kernel⟩

theorem witness_StatusIsWrittenOnlyAtTermination : ∃ t, step mid = .next t ∧ t.done = false :=
  next_of_after (by decide +kernel)

theorem witness_PcAdvancesOnlyOnCompletion :
    (RunInv mid ∧ ∃ t, step mid = .next t ∧ t.pc = 11) ∧ (RunInv atEnd ∧ ∃ t, step atEnd = .next t ∧ t.pc = 12) :=
  ⟨⟨mid_inv, next_of_after (by decide +kernel)⟩, ⟨atEnd_inv, next_of_after (by decide +kernel)⟩⟩

theorem witness_NoStepChangesTheLaunchInputs : ∃ t, step mid = .next t ∧ t.len = 12 := next_of_after (by decide +kernel)

/-- Two states that differ in a hidden slot. -/
theorem witness_HiddenSlotsAreNeverObserved : mid.visible = (mid.setSlot 2 7#64).visible ∧ mid ≠ mid.setSlot 2 7#64 :=
  ⟨State.visible_eq_iff.2 ⟨rfl, by decide +kernel⟩,
   fun h => absurd (congrArg (fun s => s.slot 2) h) (by decide +kernel)⟩

/-- ADD on three values: the slot below its operands, and the one above the stack. -/
theorem witness_OtherSlotsAreNeitherReadNorWritten :
    (on [1#64, 2#64, 3#64]).spInRange ∧
    ((0 : Fin 256).val : Int) < (on [1#64, 2#64, 3#64]).sp.toInt + 1 - (stackEffect (Instr.add).opcode).pops ∧
    (on [1#64, 2#64, 3#64]).sp.toInt + 1 - (stackEffect (Instr.add).opcode).pops +
      max (stackEffect (Instr.add).opcode).pops (stackEffect (Instr.add).opcode).pushes ≤ ((3 : Fin 256).val : Int) := by
  unfold State.spInRange
  decide +kernel

/-- A step that completes, and one that faults. -/
theorem witness_DepthFollowsTheStackEffect :
    (mid.spInRange ∧ mid.done = false ∧ ∃ t, exec .add mid = .next t ∧ t.done = false) ∧
    (atOverflow.spInRange ∧ atOverflow.done = false ∧ ∃ t, exec .push2 atOverflow = .next t ∧ t.done = true) :=
  ⟨⟨by unfold State.spInRange; decide +kernel, by decide +kernel, next_of_after (by decide +kernel)⟩,
   ⟨by unfold State.spInRange; decide +kernel, by decide +kernel, next_of_after (by decide +kernel)⟩⟩

theorem witness_ExecRefinesTheListMachine : (on []).spInRange ∧ mid.spInRange ∧ (full [] 0).spInRange := by
  unfold State.spInRange
  decide +kernel

/-- (1 / 2) - 1, on a stack with just the room it needs. -/
theorem witness_PostfixOrderEvaluatesTheExpression :
    (Expr.sub (.div (.const 0x3FF0000000000000#64) (.const 0x4000000000000000#64))
      (.const 0x3FF0000000000000#64)).noZeroDivisor = true ∧
    ({ full [] 0 with sp := 0x0FD#9 } : State).spInRange ∧
    ({ full [] 0 with sp := 0x0FD#9 } : State).sp.toInt +
      (Expr.sub (.div (.const 0x3FF0000000000000#64) (.const 0x4000000000000000#64))
        (.const 0x3FF0000000000000#64)).height = 255 := by
  unfold State.spInRange
  decide +kernel

end Sys2Proof.Tests
end

section
/-! PROOFS. What a step that answers a next state did, by its two ends: a fault of R211, or the completion of the instruction at
PC. Every statement about steps below is derived from `step_outcome`. -/

namespace Sys2Proof.Machine

open Sys2Proof

/-- All of an instruction's checks pass: the depth checks of 40_control.md R110 and, for DIV, the divisor (60_exceptions.md
R215). -/
structure Completes (i : Instr) (s : State) : Prop where
  operands : (stackEffect i.opcode).pops ≤ s.depth
  room     : s.depth - (stackEffect i.opcode).pops + (stackEffect i.opcode).pushes ≤ 256
  divisor  : i = .div → isZero s.top = false

/-- A fault's cause and tag agree with the stream at PC (60_exceptions.md R211): FetchPastEnd has no byte and the tag 0x00, every
other fault has the tag at PC. -/
structure FaultFits (s : State) (c : Cause) (tag : Byte) : Prop where
  notHalt : c ≠ .haltOk
  pastEnd : c = .fetchPastEnd → s.len ≤ s.pc ∧ tag = 0x00#8
  atTag   : c ≠ .fetchPastEnd → s.imemByte s.pc = some tag

/-- An instruction takes a fault under its own tag, which is not FetchPastEnd, or completes. -/
theorem exec_outcome {i : Instr} {s t : State} (h : exec i s = .next t) :
    (∃ c, c ≠ .haltOk ∧ c ≠ .fetchPastEnd ∧ t = s.raiseFault c (s.tagOf i.opcode)) ∨
    (Completes i s ∧ t = execute i s) := by
  rcases exec_cases h with ⟨-, ht⟩ | ⟨-, -, ht⟩ | ⟨-, -, rfl, -, ht⟩ | ⟨h₁, h₂, hz, ht⟩
  · exact .inl ⟨.stackUnderflow, nofun, nofun, ht⟩
  · exact .inl ⟨.stackOverflow, nofun, nofun, ht⟩
  · exact .inl ⟨.divisionByZero, nofun, nofun, ht⟩
  · exact .inr ⟨⟨h₁, h₂, hz⟩, ht⟩

/-- A step takes a fault that fits the stream, or completes the instruction whose tag stands at PC. -/
theorem step_outcome {s t : State} (h : step s = .next t) :
    s.done = false ∧ launchWf s.opcodeMap s.pcw s.len = true ∧
    ((∃ c tag, FaultFits s c tag ∧ t = s.raiseFault c tag) ∨
     (∃ i, s.imemByte s.pc = some (s.opcodeMap.tag i.opcode) ∧ s.pc + i.opcode.length ≤ s.len ∧ Completes i s ∧
       t = execute i s)) := by
  obtain ⟨hd, hl, ⟨hp, ht⟩ | ⟨tag, hb, -, ht⟩ | ⟨tag, o, hb, -, -, ht⟩ | ⟨tag, i, hb, htag, hlen, he⟩⟩ := step_cases h
  · exact ⟨hd, hl, .inl ⟨.fetchPastEnd, _, ⟨nofun, fun _ => ⟨hp, rfl⟩, fun hc => absurd rfl hc⟩, ht⟩⟩
  · exact ⟨hd, hl, .inl ⟨.unknownOpcode, _, ⟨nofun, nofun, fun _ => hb⟩, ht⟩⟩
  · exact ⟨hd, hl, .inl ⟨.truncatedImmediate, _, ⟨nofun, nofun, fun _ => hb⟩, ht⟩⟩
  · obtain rfl := OpcodeMap.tag_of_decode htag
    rcases exec_outcome he with ⟨c, hc, hp, ht⟩ | ⟨hi, ht⟩
    · exact ⟨hd, hl, .inl ⟨_, _, ⟨hc, fun h => absurd h hp, fun _ => hb⟩, ht⟩⟩
    · exact ⟨hd, hl, .inr ⟨i, hb, hlen, hi, ht⟩⟩

theorem State.raiseFault_faulted {s : State} {c : Cause} (tag : Byte) (h : c ≠ .haltOk) : (s.raiseFault c tag).faulted :=
  ⟨State.raiseFault_done s c tag, by rw [State.raiseFault_cause]; exact fun hc => h (Cause.code_eq_zero.1 hc)⟩

/-- Completing an instruction on a running machine is no fault: STATUS is written by HALT alone, with CAUSE 0. -/
theorem execute_not_faulted {i : Instr} {s : State} (hd : s.done = false) (h : Completes i s) : ¬(execute i s).faulted := by
  obtain ⟨hst, -, -⟩ := execute_control h.divisor
  rintro ⟨hdone, hcause⟩
  by_cases hi : i = .halt
  · rw [if_pos hi] at hst
    exact hcause (by simp [State.cause, hst])
  · rw [if_neg hi] at hst
    obtain ⟨e, -⟩ := State.fields_of_status hst
    rw [e, hd] at hdone
    exact nomatch hdone

/-- Only PRINT appends to OUT (10_state.md R34). -/
theorem execute_out (i : Instr) (s : State) : (execute i s).out = if i = .print then s.out ++ [s.top] else s.out := by
  cases i
  case div => simp only [execute]; split <;> simp
  all_goals simp [execute]

/-- Only STORE_Rk writes register k (10_state.md R25). -/
theorem execute_readReg (i : Instr) (s : State) (k : Reg) :
    (execute i s).readReg k = if i = k.store then s.top else s.readReg k := by
  cases k <;> cases i
  case r1.div | r2.div => simp only [execute]; split <;> simp [State.readReg, Reg.store]
  all_goals simp [execute, State.readReg, Reg.store]

end Sys2Proof.Machine
end

section
/-! PROOFS. The run invariant (`RunInv`) at reset, at every launch, and along every step: O1, O2, O3. -/

namespace Sys2Proof.Machine

open Sys2Proof

/-! ### At reset and at launch -/

/-- A machine at the reset values of 10_state.md R36, with a legal launch, meets the invariant. -/
theorem RunInv.of_reset_values {s : State} (hl : launchWf s.opcodeMap s.pcw s.len = true) (hm : Memory.wf s.imem = true)
    (hs : ∀ c ∈ s.imem, c.1 < s.len) (hpc : s.pc = 0) (hsp : s.sp = State.emptySp) (hst : s.status = 0#16)
    (hf : s.faultPc = 0) : RunInv s := by
  obtain ⟨-, hcause, hres, htag⟩ := State.fields_of_status_zero hst
  exact {
    launch      := hl
    canonical   := hm
    inStream    := hs
    spLegal     := by rw [hsp]; decide
    pcInStream  := by omega
    reserved    := hres
    causeLegal  := by simp [hcause]
    running     := fun _ => hst
    noFault     := fun _ => ⟨htag, hf⟩
    faultPcIsPc := fun h => absurd hcause h
    pastEnd     := fun h => by rw [hcause] at h; exact nomatch h
    faultTag    := fun h => absurd hcause h }

theorem State.launch_runInv {m : OpcodeMap} {pcw : Nat} {stream : List Byte} (fill : Stack)
    (h : launchWf m pcw stream.length = true) : RunInv (State.launch m pcw stream fill) := by
  refine .of_reset_values h (Memory.wf_writeBytes 0 stream rfl) (fun c hc => ?_) rfl rfl rfl rfl
  rcases Memory.mem_writeBytes hc with ⟨-, hlt⟩ | hc
  · simpa using hlt
  · exact nomatch hc

theorem State.hostReset_runInv {s : State} (fill : Stack) (h : RunInv s) : RunInv (s.hostReset fill) :=
  .of_reset_values h.launch h.canonical h.inStream rfl rfl rfl rfl

/-- The state after reset is a launch of the empty stream (70_reset_and_hazards.md R253). -/
theorem State.reset_eq_launch :
    State.reset = State.launch OpcodeMap.standard Config.defaultPcw [] State.reset.stk := rfl

/-! ### Along a step -/

/-- A fault that fits the stream keeps the invariant (60_exceptions.md R212). -/
theorem RunInv.after_fault {s : State} {c : Cause} {tag : Byte} (h : RunInv s) (hf : FaultFits s c tag) :
    RunInv (s.raiseFault c tag) := by
  have hc : (s.raiseFault c tag).cause = c.code := State.raiseFault_cause s c tag
  have hpast : c.code = 6#3 → c = .fetchPastEnd := by cases c <;> decide
  exact {
    launch      := h.launch
    canonical   := h.canonical
    inStream    := h.inStream
    spLegal     := h.spLegal
    pcInStream  := h.pcInStream
    reserved    := State.raiseFault_statusReserved s c tag
    causeLegal  := hc ▸ c.code_toNat_le
    running     := fun hd => by rw [State.raiseFault_done] at hd; exact nomatch hd
    noFault     := fun h0 => absurd (Cause.code_eq_zero.1 (hc ▸ h0)) hf.notHalt
    faultPcIsPc := fun _ => rfl
    pastEnd     := fun h6 => by
      obtain ⟨hle, htag⟩ := hf.pastEnd (hpast (hc ▸ h6))
      exact ⟨by rw [State.raiseFault_faultTag, htag], Nat.le_antisymm h.pcInStream hle⟩
    faultTag    := fun _ h6 => by
      rw [State.raiseFault_faultTag]
      exact hf.atTag fun hp => h6 (by rw [hc, hp]; rfl) }

/-- STATUS and FAULT_PC after an instruction completed on a running machine in the invariant: STATUS is 0, or 1 after a HALT, and
FAULT_PC is 0 (10_state.md R31, R33). -/
theorem execute_status {i : Instr} {s : State} (h : RunInv s) (hd : s.done = false) (hi : Completes i s) :
    (execute i s).status = (if i = .halt then 0x0001#16 else 0#16) ∧ (execute i s).faultPc = 0 := by
  obtain ⟨hst, hfpc, -⟩ := execute_control hi.divisor
  have h0 := h.running hd
  obtain ⟨-, hcause, -, -⟩ := State.fields_of_status_zero h0
  exact ⟨by rw [hst, h0], by rw [hfpc]; exact (h.noFault hcause).2⟩

/-- Completing an instruction keeps SP legal (10_state.md R27). -/
theorem execute_spInRange {i : Instr} {s : State} (hi : Completes i s) : (execute i s).spInRange := by
  have hdepth := execute_depth hi.operands hi.room hi.divisor
  have := hi.operands
  have := hi.room
  rw [State.spInRange_iff]
  omega

/-- Completing an instruction that lies in the stream keeps the invariant. -/
theorem RunInv.after_execute {i : Instr} {s : State} (h : RunInv s) (hd : s.done = false) (hlen : s.pc + i.opcode.length ≤ s.len)
    (hi : Completes i s) : RunInv (execute i s) := by
  obtain ⟨himem, hL, hmap, hpcw⟩ := execute_inputs i s
  obtain ⟨-, -, hpc⟩ := execute_control hi.divisor
  obtain ⟨hst, hfpc⟩ := execute_status h hd hi
  have hcause : (execute i s).cause = 0#3 := by
    rw [State.cause, hst]; split <;> decide
  exact {
    launch      := by rw [hmap, hpcw, hL]; exact h.launch
    canonical   := by rw [himem]; exact h.canonical
    inStream    := by rw [himem, hL]; exact h.inStream
    spLegal     := execute_spInRange hi
    pcInStream  := by rw [hpc, hL]; exact hlen
    reserved    := by rw [State.statusReserved, hst]; split <;> decide
    causeLegal  := by simp [hcause]
    running     := fun hrun => by
      rw [State.done, hst] at hrun
      rw [hst]
      split at hrun
      · exact absurd hrun (by decide)
      · exact if_neg ‹_›
    noFault     := fun _ => ⟨by rw [State.faultTag, hst]; split <;> decide, hfpc⟩
    faultPcIsPc := fun hc => absurd hcause hc
    pastEnd     := fun hc => by rw [hcause] at hc; exact nomatch hc
    faultTag    := fun hc => absurd hcause hc }

theorem RunInv.after_step {s t : State} (h : RunInv s) (hst : step s = .next t) : RunInv t := by
  obtain ⟨hd, -, ⟨c, tag, hf, rfl⟩ | ⟨i, -, hlen, hi, rfl⟩⟩ := step_outcome hst
  · exact h.after_fault hf
  · exact h.after_execute hd hlen hi

/-! ### The obligations -/

/-- Settles O1: the state after reset is a launch of the empty stream. -/
theorem invariantHoldsAtReset : Obligations.InvariantHoldsAtReset := by
  unfold Obligations.InvariantHoldsAtReset
  rw [State.reset_eq_launch]
  exact State.launch_runInv _ (by decide)

/-- Settles O2: a launch and a reset have the reset values, and a legal stream. -/
theorem invariantHoldsAtEveryLaunch : Obligations.InvariantHoldsAtEveryLaunch :=
  ⟨fun _ _ _ fill h => State.launch_runInv fill h, fun _ fill h => State.hostReset_runInv fill h⟩

/-- Settles O3, by the two ends of a step: a fault that fits the stream, and a completion. -/
theorem stepKeepsTheInvariant : Obligations.StepKeepsTheInvariant :=
  fun _ _ h hst => h.after_step hst

end Sys2Proof.Machine
end

section
/-! PROOFS. Non-interference: which parts of the state an instruction does not read. O50 and O55, and the second half of O52. -/

namespace Sys2Proof.Machine

open Sys2Proof

/-! ### One lemma for every part that is not read -/

/-- Two states of one depth on which both the faults and the completion of an instruction look the same through `f` and `g` give
outcomes that look the same: the depth checks themselves read nothing but the depth (40_control.md R110). -/
theorem exec_agree {i : Instr} {s s' : State} {f g : State → State} (hd : s'.depth = s.depth)
    (hfault : ∀ c, g (s'.raiseFault c (s'.tagOf i.opcode)) = f (s.raiseFault c (s.tagOf i.opcode)))
    (hexec : (stackEffect i.opcode).pops ≤ s.depth → g (execute i s') = f (execute i s)) :
    mapNext g (exec i s') = mapNext f (exec i s) := by
  simp only [exec_eq, mapNext, Host.Outcome.next.injEq]
  rcases State.checked_cases s i.opcode (execute i) with ⟨h₁, h⟩ | ⟨h₁, h₂, h⟩ | ⟨h₁, h₂, h⟩
  · rw [h, State.checked_underflow (hd ▸ h₁)]
    exact hfault _
  · rw [h, State.checked_overflow (hd ▸ h₁) (hd ▸ h₂)]
    exact hfault _
  · rw [h, State.checked_pass (hd ▸ h₁) (hd ▸ h₂)]
    exact hexec h₁

/-! ### Registers (10_state.md R25) -/

@[simp] theorem State.top_writeReg (s : State) (v : Value) (k : Reg) : (s.writeReg v k).top = s.top := by
  cases k <;> rfl

/-- An instruction other than LOAD_Rk and STORE_Rk commutes with a write of register k. -/
theorem execute_writeReg {i : Instr} {k : Reg} (s : State) (v : Value) (hl : i ≠ k.load) (hs : i ≠ k.store) :
    execute i (s.writeReg v k) = (execute i s).writeReg v k := by
  cases k <;> cases i
  case r1.loadR1 | r2.loadR2 => exact absurd rfl hl
  case r1.storeR1 | r2.storeR2 => exact absurd rfl hs
  case r1.div | r2.div =>
    rw [execute, execute, State.top_writeReg]
    split <;> rfl
  all_goals rfl

theorem exec_writeReg {i : Instr} {k : Reg} (s : State) (v : Value) (hl : i ≠ k.load) (hs : i ≠ k.store) :
    exec i (s.writeReg v k) = mapNext (fun t => t.writeReg v k) (exec i s) := by
  have h : mapNext id (exec i (s.writeReg v k)) = mapNext (fun t => t.writeReg v k) (exec i s) :=
    exec_agree (by cases k <;> rfl) (fun _ => by cases k <;> rfl) fun _ => execute_writeReg s v hl hs
  rw [← h, exec_eq]
  rfl

theorem exec_readReg {i : Instr} {s t : State} {k : Reg} (hs : i ≠ k.store) (h : exec i s = .next t) :
    t.readReg k = s.readReg k := by
  rcases exec_outcome h with ⟨c, -, -, rfl⟩ | ⟨-, rfl⟩
  · cases k <;> rfl
  · rw [execute_readReg, if_neg hs]

/-- Settles O50: the write law, then what each instruction reads and what it writes. -/
theorem onlyTransfersTouchRegisters : Obligations.OnlyTransfersTouchRegisters :=
  ⟨fun s v j k => State.readReg_writeReg s v k j,
   fun s _ _ => ⟨fun v hl hs => exec_writeReg s v hl hs, fun _ hs h => exec_readReg hs h⟩⟩

/-! ### STATUS and FAULT_PC (10_state.md R30) -/

/-- An instruction reads neither STATUS nor FAULT_PC: with both masked, its effect is the same whatever they held. -/
theorem exec_masked_status (i : Instr) (s : State) (x : BitVec 16) (y : Nat) :
    mapNext (fun t => { t with status := 0#16, faultPc := 0 }) (exec i { s with status := x, faultPc := y }) =
    mapNext (fun t => { t with status := 0#16, faultPc := 0 }) (exec i s) := by
  refine exec_agree rfl (fun _ => rfl) fun _ => ?_
  cases i
  case div =>
    have htop : ({ s with status := x, faultPc := y } : State).top = s.top := rfl
    simp only [execute, htop]
    split <;> rfl
  all_goals rfl

/-! ### Hidden slots (10_state.md R28) -/

section Visible

variable {s t : State}

/-- States that differ in hidden slots alone are one state but for the stack memory. -/
theorem State.eq_of_visible (h : s.visible = t.visible) : t = { s with stk := t.stk } :=
  (State.visible_eq_iff.1 h).1

/-- What is read off a state without its stack memory is the same of both. -/
theorem State.read_congr {α : Type} {g : State → α} (hg : ∀ (u : State) (k : Stack), g { u with stk := k } = g u)
    (h : s.visible = t.visible) : g t = g s := by
  rw [State.eq_of_visible h, hg]

theorem State.sp_congr (h : s.visible = t.visible) : t.sp = s.sp :=
  State.read_congr (g := State.sp) (fun _ _ => rfl) h

/-- The slots below the depth are visible. -/
theorem State.slot_congr (h : s.visible = t.visible) {j : Fin 256} (hj : j.val < s.depth) : s.slot j = t.slot j :=
  (State.visible_eq_iff.1 h).2 j hj

/-- The top of a stack that is not empty is visible. -/
theorem State.top_congr (h : s.visible = t.visible) (h₁ : 1 ≤ s.depth) : s.top = t.top := by
  rw [State.top, State.top, State.sp_congr h]
  exact State.slot_congr h (State.slotOf_lt_depth h₁)

/-- A push hides no difference and shows none: the one slot that becomes visible is the one it writes. -/
theorem State.visible_push (h : s.visible = t.visible) (v : Value) : (s.push v).visible = (t.push v).visible := by
  refine State.visible_eq_iff.2 ⟨by rw [State.eq_of_visible h]; rfl, fun j hj => ?_⟩
  rw [State.slot_push, State.slot_push, State.sp_congr h]
  split
  · rfl
  · next hne =>
    have hslot : (slotOf (s.sp + 1#9)).val = s.depth % 256 := slotOf_val _
    have hj' : j.val ≠ s.depth % 256 := fun e => hne (Fin.ext (e.trans hslot.symm))
    have hpush : (s.push v).depth = (s.depth + 1) % 512 := by
      rw [State.depth_toNat, State.push_sp]
      rfl
    exact State.slot_congr h (by omega)

/-- A pop from a stack that is not empty shows no slot. -/
theorem State.visible_drop (h : s.visible = t.visible) (h₁ : 1 ≤ s.depth) : s.drop.visible = t.drop.visible := by
  have hdrop := State.depth_drop h₁
  exact State.visible_eq_iff.2 ⟨by rw [State.eq_of_visible h]; rfl, fun j hj => State.slot_congr h (by omega)⟩

/-- A change that neither reads nor writes the stack memory and leaves SP keeps what is visible the same. -/
theorem State.visible_map {f : State → State} (hstk : ∀ (u : State) (k : Stack), f { u with stk := k } = { f u with stk := k })
    (hsp : ∀ u, (f u).sp = u.sp) (h : s.visible = t.visible) : (f s).visible = (f t).visible := by
  have hkeep : ∀ u : State, (f u).stk = u.stk := fun u => (congrArg State.stk (hstk u u.stk) :)
  have hslot : ∀ (u : State) (j : Fin 256), (f u).slot j = u.slot j := fun u j => by rw [State.slot, hkeep]; rfl
  refine State.visible_eq_iff.2 ⟨?_, fun j hj => ?_⟩
  · rw [hkeep, ← hstk, ← State.eq_of_visible h]
  · rw [State.depth, hsp] at hj
    rw [hslot, hslot]
    exact State.slot_congr h hj

theorem State.visible_advance (h : s.visible = t.visible) (o : Opcode) : (s.advance o).visible = (t.advance o).visible :=
  State.visible_map (f := (State.advance · o)) (fun _ _ => rfl) (fun _ => rfl) h

theorem State.visible_halt (h : s.visible = t.visible) : s.halt.visible = t.halt.visible :=
  State.visible_map (f := State.halt) (fun _ _ => rfl) (fun _ => rfl) h

theorem State.visible_raiseFault (h : s.visible = t.visible) (c : Cause) (o : Opcode) :
    (s.raiseFault c (s.tagOf o)).visible = (t.raiseFault c (t.tagOf o)).visible :=
  State.visible_map (f := fun u => u.raiseFault c (u.tagOf o)) (fun _ _ => rfl) (fun _ => rfl) h

theorem State.visible_unary (h : s.visible = t.visible) (f : Value → Value) (h₁ : 1 ≤ s.depth) :
    (s.unary f).visible = (t.unary f).visible := by
  rw [State.unary, State.unary, State.top_congr h h₁]
  exact State.visible_push (State.visible_drop h h₁) _

theorem State.visible_binary (h : s.visible = t.visible) (f : Value → Value → Value) (h₂ : 2 ≤ s.depth) :
    (s.binary f).visible = (t.binary f).visible := by
  have h₁ : 1 ≤ s.depth := by omega
  have hdrop := State.visible_drop h h₁
  have hd₁ : 1 ≤ s.drop.depth := by have := State.depth_drop h₁; omega
  rw [State.binary, State.binary, State.top_congr h h₁, State.top_congr hdrop hd₁]
  exact State.visible_push (State.visible_drop hdrop hd₁) _

theorem State.visible_popReg (h : s.visible = t.visible) (k : Reg) (h₁ : 1 ≤ s.depth) :
    (s.popReg k).visible = (t.popReg k).visible := by
  have hdrop := State.visible_drop h h₁
  rw [State.popReg, State.popReg, State.top_congr h h₁]
  exact State.visible_map (f := (State.writeReg · t.top k)) (fun _ _ => by cases k <;> rfl) (fun _ => by simp) hdrop

theorem State.visible_popEmit (h : s.visible = t.visible) (h₁ : 1 ≤ s.depth) : s.popEmit.visible = t.popEmit.visible := by
  have hdrop := State.visible_drop h h₁
  rw [State.popEmit, State.popEmit, State.top_congr h h₁]
  exact State.visible_map (f := (State.emit · t.top)) (fun _ _ => rfl) (fun _ => rfl) hdrop

/-- An instruction with its operands on the stack takes states that differ in hidden slots alone to such states. -/
theorem execute_visible (i : Instr) (h : s.visible = t.visible) (hpop : (stackEffect i.opcode).pops ≤ s.depth) :
    (execute i s).visible = (execute i t).visible := by
  cases i with
  | halt => exact State.visible_halt (State.visible_advance h _)
  | nop => exact State.visible_advance h _
  | pushM1 | push0 | push1 | push2 | pushConst => exact State.visible_advance (State.visible_push h _) _
  | add | sub | mul => exact State.visible_advance (State.visible_binary h _ hpop) _
  | div =>
    have htop : s.top = t.top := State.top_congr h (Nat.le_of_succ_le hpop)
    simp only [execute, htop]
    split
    · exact State.visible_raiseFault h _ _
    · exact State.visible_advance (State.visible_binary h _ hpop) _
  | neg => exact State.visible_advance (State.visible_unary h _ hpop) _
  | loadR1 =>
    have hr : t.r1 = s.r1 := State.read_congr (g := State.r1) (fun _ _ => rfl) h
    simp only [execute, hr]
    exact State.visible_advance (State.visible_push h _) _
  | loadR2 =>
    have hr : t.r2 = s.r2 := State.read_congr (g := State.r2) (fun _ _ => rfl) h
    simp only [execute, hr]
    exact State.visible_advance (State.visible_push h _) _
  | storeR1 | storeR2 => exact State.visible_advance (State.visible_popReg h _ hpop) _
  | print => exact State.visible_advance (State.visible_popEmit h hpop) _

theorem exec_visible (i : Instr) (h : s.visible = t.visible) :
    mapNext State.visible (exec i s) = mapNext State.visible (exec i t) :=
  (exec_agree (State.read_congr (g := State.depth) (fun _ _ => rfl) h) (fun c => (State.visible_raiseFault h c _).symm)
    fun hpop => (execute_visible i h hpop).symm).symm

/-- Stepping: DONE, the launch and the fetch do not look at the stack, and the rest is `exec_visible`. -/
theorem step_visible (h : s.visible = t.visible) :
    mapNext State.visible (step s) = mapNext State.visible (step t) := by
  have hdone : t.done = s.done := State.read_congr (g := State.done) (fun _ _ => rfl) h
  have hlaunch : t.launchProblem = s.launchProblem := State.read_congr (g := State.launchProblem) (fun _ _ => rfl) h
  have hfetch : t.fetch = s.fetch := State.read_congr (g := State.fetch) (fun _ _ => rfl) h
  rw [step, step, hdone, hlaunch, hfetch]
  split
  · rfl
  · split
    · rfl
    · split
      · exact exec_visible _ h
      · next c tag _ =>
        exact congrArg Host.Outcome.next
          (State.visible_map (f := (State.raiseFault · c tag)) (fun _ _ => rfl) (fun _ => rfl) h)

end Visible

/-- Settles O55, by the visible part of what each stack operation gives. -/
theorem hiddenSlotsAreNeverObserved : Obligations.HiddenSlotsAreNeverObserved :=
  fun _ _ h => step_visible h

end Sys2Proof.Machine
end

section
/-! PROOFS. What a step writes: OUT, STATUS and FAULT_PC, PC, and never the launch inputs. O51 to O54. -/

namespace Sys2Proof.Machine

open Sys2Proof

/-- Under a legal map only PRINT has PRINT's byte (30_encoding.md R85). -/
theorem tag_eq_print_iff {m : OpcodeMap} (h : m.wf = true) (i : Instr) : m.tag i.opcode = m.print ↔ i = .print := by
  constructor
  · intro ht
    have ho : i.opcode = .print := OpcodeMap.tag_injective h ht
    cases i with
    | print => rfl
    | _ => exact nomatch ho
  · rintro rfl
    rfl

/-- Settles O51: a fault leaves OUT, and of the instructions that complete PRINT alone appends. -/
theorem onlyPrintAppendsToOut : Obligations.OnlyPrintAppendsToOut := by
  refine ⟨rfl, fun s t h => ?_⟩
  obtain ⟨hd, hl, ⟨c, tag, hf, rfl⟩ | ⟨i, hb, -, hi, rfl⟩⟩ := step_outcome h
  · exact ⟨fun hp => absurd (State.raiseFault_faulted tag hf.notHalt) hp.2, fun _ => rfl⟩
  · have hnf := execute_not_faulted hd hi
    have hprint := tag_eq_print_iff (launchWf_iff.1 hl).1 i
    rw [hb, Option.some_inj, hprint, execute_out]
    exact ⟨fun hp => ⟨s.top, if_pos hp.1⟩, fun hn => if_neg fun hp => hn ⟨hp, hnf⟩⟩

/-- Settles O52: a step that leaves DONE = 0 is no fault and no HALT, and no instruction reads either register. -/
theorem statusIsWrittenOnlyAtTermination : Obligations.StatusIsWrittenOnlyAtTermination := by
  refine ⟨fun s t h hrun => ?_, exec_masked_status⟩
  obtain ⟨-, -, ⟨c, tag, -, rfl⟩ | ⟨i, -, -, hi, rfl⟩⟩ := step_outcome h
  · rw [State.raiseFault_done] at hrun
    exact nomatch hrun
  · obtain ⟨hst, hfpc, -⟩ := execute_control hi.divisor
    have hne : i ≠ .halt := by
      rintro rfl
      simp [State.done, hst] at hrun
    exact ⟨by rw [hst, if_neg hne], hfpc⟩

/-- Settles O53: a fault leaves PC, and a completion moves it past an instruction that lies in the stream. -/
theorem pcAdvancesOnlyOnCompletion : Obligations.PcAdvancesOnlyOnCompletion := by
  intro s t hinv h
  obtain ⟨hd, hl, ⟨c, tag, hf, rfl⟩ | ⟨i, hb, hlen, hi, rfl⟩⟩ := step_outcome h
  · exact ⟨fun _ => rfl, fun hnf => absurd (State.raiseFault_faulted tag hf.notHalt) hnf⟩
  · obtain ⟨-, -, hpc⟩ := execute_control hi.divisor
    refine ⟨fun hft => absurd hft (execute_not_faulted hd hi), fun _ => ⟨i.opcode, hb, ?_, ?_, (launchWf_iff.1 hl).2⟩⟩
    · rw [hpc, Opcode.length_eq]
    · rw [hpc]
      exact hlen

/-- Settles O54: neither a fault nor a completion writes a launch input. -/
theorem noStepChangesTheLaunchInputs : Obligations.NoStepChangesTheLaunchInputs := by
  intro s t h
  obtain ⟨-, -, ⟨c, tag, -, rfl⟩ | ⟨i, -, -, -, rfl⟩⟩ := step_outcome h
  · exact ⟨rfl, rfl, rfl, rfl⟩
  · exact execute_inputs i s

end Sys2Proof.Machine
end

section
/-! PROOFS. The memories: a multi-byte read of the stream is little-endian (O17), and an instruction commutes with a write of any
slot that it neither pops nor pushes to (O56). -/

namespace Sys2Proof.Machine

open Sys2Proof

/-! ### Reads of the stream (20_memory.md R53) -/

/-- Byte `k` of a little-endian word is byte `k` of the list it was assembled from (20_memory.md R52). -/
theorem extractLsb'_leNat {bs : List Byte} {n k : Nat} (hn : bs.length = n) (hk : k < bs.length) :
    (BitVec.ofNat (8 * n) (leNat bs)).extractLsb' (8 * k) 8 = bs[k] := by
  have hlt : leNat bs < 2 ^ (8 * n) := by
    rw [Nat.pow_mul, ← hn]
    exact leNat_lt bs
  apply BitVec.eq_of_toNat_eq
  rw [BitVec.extractLsb'_toNat, BitVec.toNat_ofNat, Nat.mod_eq_of_lt hlt, Nat.shiftRight_eq_div_pow, Nat.pow_mul]
  exact leNat_byte bs k hk

theorem State.memRead_of_gt {s : State} {a n : Nat} (h : s.len < a + n) : s.memRead a n = none :=
  if_neg (Nat.not_le.2 h)

/-- Settles O17: byte `k` of the word is byte `k` of the bytes read, which is the one at `a + k`. -/
theorem memReadIsLittleEndian : Obligations.MemReadIsLittleEndian := by
  refine fun s a n => ⟨fun h => ⟨_, State.memRead_of_le h, fun k hk => ?_⟩, State.memRead_of_gt⟩
  have hlen : (Memory.readBytes s.imem a n).length = n := Memory.length_readBytes s.imem a n
  have hk' : k < (Memory.readBytes s.imem a n).length := hlen.symm ▸ hk
  rw [State.imemByte_of_lt (by omega), extractLsb'_leNat hlen hk', Memory.getElem_readBytes]

/-! ### Writes of a slot an instruction does not touch (20_memory.md R60) -/

section OtherSlots

variable {s : State} {j : Fin 256}

/-- Writes of two different slots commute. -/
theorem State.setSlot_comm {k : Fin 256} (h : j ≠ k) (v w : Value) :
    (s.setSlot j v).setSlot k w = (s.setSlot k w).setSlot j v :=
  congrArg (fun stk : Stack => { s with stk }) (Vector.set_comm v w (Fin.val_ne_of_ne h))

/-- On a stack that is not empty, the top is the slot just below the depth. -/
theorem State.slotOf_sp_val (h₁ : 1 ≤ s.depth) (h₂ : s.depth ≤ 256) : (slotOf s.sp).val + 1 = s.depth := by
  have e := State.depth_toNat s
  have := s.sp.isLt
  rw [slotOf_val]
  omega

/-- On a stack with room, a push writes the slot at the depth. -/
theorem State.slotOf_push_val (h : s.depth ≤ 255) : (slotOf (s.sp + 1#9)).val = s.depth := by
  rw [slotOf_val, ← State.depth]
  omega

/-- The top is read from no slot but its own. -/
theorem State.top_setSlot (v : Value) (h₁ : 1 ≤ s.depth) (h₂ : s.depth ≤ 256) (hj : j.val + 1 ≠ s.depth) :
    (s.setSlot j v).top = s.top := by
  have hne : slotOf s.sp ≠ j := fun e => hj (e ▸ State.slotOf_sp_val h₁ h₂)
  rw [State.top, State.setSlot_sp, State.slot_setSlot, if_neg hne, State.top]

theorem State.drop_setSlot (v : Value) : (s.setSlot j v).drop = s.drop.setSlot j v := rfl

/-- A push writes no slot but the one at the depth. -/
theorem State.push_setSlot (v w : Value) (h : s.depth ≤ 255) (hj : j.val ≠ s.depth) :
    (s.setSlot j v).push w = (s.push w).setSlot j v := by
  have hne : j ≠ slotOf (s.sp + 1#9) := fun e => hj (e ▸ State.slotOf_push_val h)
  exact State.setSlot_comm (s := { s with sp := s.sp + 1#9 }) hne v w

theorem State.unary_setSlot (v : Value) (f : Value → Value) (h₁ : 1 ≤ s.depth) (h₂ : s.depth ≤ 256)
    (hj : j.val + 1 ≠ s.depth) : (s.setSlot j v).unary f = (s.unary f).setSlot j v := by
  have hd := State.depth_drop h₁
  rw [State.unary, State.top_setSlot v h₁ h₂ hj, State.drop_setSlot, State.push_setSlot v _ (by omega) (by omega), State.unary]

theorem State.binary_setSlot (v : Value) (f : Value → Value → Value) (h₁ : 2 ≤ s.depth) (h₂ : s.depth ≤ 256)
    (hj : j.val < s.depth - 2 ∨ s.depth ≤ j.val) : (s.setSlot j v).binary f = (s.binary f).setSlot j v := by
  have hd : s.drop.depth + 1 = s.depth := State.depth_drop (by omega)
  have hdd : s.drop.drop.depth + 1 = s.drop.depth := State.depth_drop (by omega)
  rw [State.binary, State.top_setSlot v (by omega) h₂ (by omega), State.drop_setSlot,
    State.top_setSlot v (by omega) (by omega) (by omega), State.drop_setSlot,
    State.push_setSlot v _ (by omega) (by omega), State.binary]

theorem State.popReg_setSlot (v : Value) (k : Reg) (h₁ : 1 ≤ s.depth) (h₂ : s.depth ≤ 256) (hj : j.val + 1 ≠ s.depth) :
    (s.setSlot j v).popReg k = (s.popReg k).setSlot j v := by
  rw [State.popReg, State.top_setSlot v h₁ h₂ hj]
  cases k <;> rfl

theorem State.popEmit_setSlot (v : Value) (h₁ : 1 ≤ s.depth) (h₂ : s.depth ≤ 256) (hj : j.val + 1 ≠ s.depth) :
    (s.setSlot j v).popEmit = s.popEmit.setSlot j v := by
  rw [State.popEmit, State.top_setSlot v h₁ h₂ hj]
  rfl

/-- An instruction whose depth checks pass commutes with a write of a slot outside those it pops and pushes to, which lie from
`depth - pops` up. -/
theorem execute_setSlot (i : Instr) (v : Value) (h₂ : s.depth ≤ 256) (hpop : (stackEffect i.opcode).pops ≤ s.depth)
    (hroom : s.depth - (stackEffect i.opcode).pops + (stackEffect i.opcode).pushes ≤ 256)
    (hj : j.val < s.depth - (stackEffect i.opcode).pops ∨
      s.depth - (stackEffect i.opcode).pops + max (stackEffect i.opcode).pops (stackEffect i.opcode).pushes ≤ j.val) :
    execute i (s.setSlot j v) = (execute i s).setSlot j v := by
  cases i <;> simp only [Instr.opcode, stackEffect] at hpop hroom hj
  case halt | nop => rfl
  case pushM1 | push0 | push1 | push2 | pushConst | loadR1 | loadR2 =>
    exact congrArg (State.advance · _) (State.push_setSlot v _ (by omega) (by omega))
  case add | sub | mul =>
    exact congrArg (State.advance · _) (State.binary_setSlot v _ hpop h₂ (by omega))
  case div =>
    rw [execute, State.top_setSlot v (by omega) h₂ (by omega), State.binary_setSlot v _ hpop h₂ (by omega), execute]
    split <;> rfl
  case neg => exact congrArg (State.advance · _) (State.unary_setSlot v _ hpop h₂ (by omega))
  case storeR1 | storeR2 => exact congrArg (State.advance · _) (State.popReg_setSlot v _ hpop h₂ (by omega))
  case print => exact congrArg (State.advance · _) (State.popEmit_setSlot v hpop h₂ (by omega))

end OtherSlots

/-- Settles O56: a depth fault touches no slot, and a completion or a zero divisor's fault is `execute_setSlot`. -/
theorem otherSlotsAreNeitherReadNorWritten : Obligations.OtherSlotsAreNeitherReadNorWritten := by
  intro s i j v hsp hj
  have hle : s.depth ≤ 256 := (State.spInRange_iff s).1 hsp
  rw [← State.depth_eq hsp] at hj
  simp only [exec_eq, mapNext, Host.Outcome.next.injEq]
  rcases State.checked_cases s i.opcode (execute i) with ⟨h₁, h⟩ | ⟨h₁, h₂, h⟩ | ⟨h₁, h₂, h⟩
  · rw [h, State.checked_underflow (s := s.setSlot j v) h₁]
    rfl
  · rw [h, State.checked_overflow (s := s.setSlot j v) h₁ h₂]
    rfl
  · rw [h, State.checked_pass (s := s.setSlot j v) h₁ h₂]
    exact execute_setSlot i v hle h₁ h₂ (by omega)

end Sys2Proof.Machine
end

section
/-! PROOFS. The encoding: decoding and encoding are inverse to each other, the opcode map, and the two formats. O11 to O16. -/

namespace Sys2Proof

/-! ### Decoding and encoding (30_encoding.md R80 to R87) -/

theorem leNat_lt_two_pow {bs : List Byte} {n : Nat} (h : bs.length = n) : leNat bs < 2 ^ (8 * n) := by
  rw [Nat.pow_mul, ← h]
  exact leNat_lt bs

/-- The bytes after the tag of an instruction that was put together from its opcode and its immediate bytes are those bytes. -/
theorem Opcode.trailing_toInstr {o : Opcode} {bs : List Byte} (h : bs.length = o.immBytes) :
    (o.toInstr (BitVec.ofNat 64 (leNat bs))).trailing = bs := by
  cases o with
  | pushConst =>
    have h8 : bs.length = 8 := h
    rw [Opcode.toInstr, Instr.trailing, BitVec.toNat_ofNat, Nat.mod_eq_of_lt (leNat_lt_two_pow h8), ← h8, leBytes_leNat]
  | _ => exact (List.length_eq_zero_iff.1 h).symm

theorem decodeBytes_encode {m : OpcodeMap} (hm : m.wf = true) (i : Instr) (rest : List Byte) :
    decodeBytes m (encode m i ++ rest) = .instr i rest := by
  have hlen := Instr.length_trailing i
  rw [encode, List.cons_append, decodeBytes_some (OpcodeMap.decode_tag hm i.opcode) (by simp),
    List.take_left' hlen, List.drop_left' hlen, Instr.toInstr_opcode]

theorem encode_of_decodeBytes {m : OpcodeMap} {bytes rest : List Byte} {i : Instr}
    (h : decodeBytes m bytes = .instr i rest) : bytes = encode m i ++ rest := by
  cases bytes with
  | nil => exact nomatch h
  | cons tag bytes =>
    rcases decodeBytes_cases m tag bytes with ⟨-, hr⟩ | ⟨o, -, -, hr⟩ | ⟨o, hd, hs, hr⟩
    · exact nomatch hr.symm.trans h
    · exact nomatch hr.symm.trans h
    · obtain ⟨rfl, rfl⟩ := Decoded.instr.inj (hr.symm.trans h)
      have hlen : (bytes.take o.immBytes).length = o.immBytes := List.length_take_of_le hs
      rw [encode, Opcode.opcode_toInstr, OpcodeMap.tag_of_decode hd, Opcode.trailing_toInstr hlen, List.cons_append,
        List.take_append_drop]

/-! ### Tags (30_encoding.md R84, R86, R88) -/

theorem OpcodeMap.decode_eq_some_iff {m : OpcodeMap} (hm : m.wf = true) {tag : Byte} {o : Opcode} :
    m.decode tag = some o ↔ m.tag o = tag :=
  ⟨OpcodeMap.tag_of_decode, fun h => h ▸ OpcodeMap.decode_tag hm o⟩

/-- A tag is refused exactly when it is no instruction's byte: the decoder's other two answers come with an opcode. -/
theorem decodeBytes_eq_unknownOpcode_iff {m : OpcodeMap} {tag : Byte} {rest : List Byte} :
    decodeBytes m (tag :: rest) = .unknownOpcode tag ↔ m.decode tag = none := by
  refine ⟨fun h => ?_, decodeBytes_none rest⟩
  rcases decodeBytes_cases m tag rest with ⟨hd, -⟩ | ⟨o, -, -, hr⟩ | ⟨o, -, -, hr⟩
  · exact hd
  · exact nomatch hr.symm.trans h
  · exact nomatch hr.symm.trans h

/-- The default map numbers the 17 instructions in the order of R84. -/
theorem OpcodeMap.standard_tag_all : ∀ k : Fin 17, OpcodeMap.standard.tag Opcode.all[k] = BitVec.ofNat 8 k.val := by
  decide

theorem OpcodeMap.standard_tag_lt (o : Opcode) : (OpcodeMap.standard.tag o).toNat < 0x11 := by
  cases o <;> decide

/-- Under the default map the bytes of no instruction are 0x11 to 0xFF. -/
theorem OpcodeMap.standard_tag_ne_iff {tag : Byte} : (∀ o, OpcodeMap.standard.tag o ≠ tag) ↔ 0x11 ≤ tag.toNat := by
  constructor
  · intro h
    by_contra hlt
    refine h Opcode.all[(⟨tag.toNat, by omega⟩ : Fin 17)] ?_
    rw [OpcodeMap.standard_tag_all, BitVec.ofNat_toNat, BitVec.setWidth_eq]
  · rintro h o rfl
    have := OpcodeMap.standard_tag_lt o
    omega

/-! ### The bytes of an immediate (30_encoding.md R82) -/

/-- Byte `k` of a 64-bit value, least significant first, is its bits `8k+7 .. 8k`. -/
theorem getElem?_leBytes (v : Value) {k : Nat} (h : k < 8) :
    (leBytes 8 v.toNat)[k]? = some (v.extractLsb' (8 * k) 8) := by
  have hlen : (leBytes 8 v.toNat).length = 8 := length_leBytes 8 v.toNat
  have hv : BitVec.ofNat 64 (leNat (leBytes 8 v.toNat)) = v := by
    rw [leNat_leBytes, show 256 ^ 8 = 2 ^ 64 from rfl, Nat.mod_eq_of_lt v.isLt, BitVec.ofNat_toNat, BitVec.setWidth_eq]
  have hk : k < (leBytes 8 v.toNat).length := hlen.symm ▸ h
  rw [List.getElem?_eq_getElem hk, ← Machine.extractLsb'_leNat hlen hk]
  exact congrArg (fun w : Value => some (w.extractLsb' (8 * k) 8)) hv

theorem Opcode.immBytes_eq_zero {o : Opcode} (h : o ≠ .pushConst) : o.immBytes = 0 := by
  cases o with
  | pushConst => exact absurd rfl h
  | _ => rfl

theorem encode_eq_tag {m : OpcodeMap} {i : Instr} (h : i.opcode ≠ .pushConst) : encode m i = [m.tag i.opcode] := by
  have hlen := Instr.length_trailing i
  rw [Opcode.immBytes_eq_zero h, List.length_eq_zero_iff] at hlen
  rw [encode, hlen]

end Sys2Proof

namespace Sys2Proof.Machine

open Sys2Proof

/-! ### The obligations -/

/-- Settles O11, by `decodeBytes_encode`: the tag selects the opcode, and the immediate is put together from its bytes again. -/
theorem decodeOfEncode : Obligations.DecodeOfEncode :=
  fun _ i rest hm _ => decodeBytes_encode hm i rest

/-- Settles O12, by `encode_of_decodeBytes`: what was read as an instruction gives the same bytes back. -/
theorem encodeOfDecode : Obligations.EncodeOfDecode :=
  fun _ _ _ _ h => encode_of_decodeBytes h

/-- Settles O13, by running the decoder on each word of R84. -/
theorem tableWordsDecodeAsListed : Obligations.TableWordsDecodeAsListed := by
  unfold Obligations.TableWordsDecodeAsListed
  decide

/-- Settles O14: an opcode map is a partial function from tags, and the default one is defined below 0x11. -/
theorem tagsDecodeByTheOpcodeMap : Obligations.TagsDecodeByTheOpcodeMap :=
  ⟨fun _ _ _ hm => OpcodeMap.decode_eq_some_iff hm,
   fun _ _ => OpcodeMap.decode_eq_none,
   fun _ _ _ => decodeBytes_eq_unknownOpcode_iff.trans OpcodeMap.decode_eq_none,
   fun _ _ => decodeBytes_eq_unknownOpcode_iff.trans (OpcodeMap.decode_eq_none.trans OpcodeMap.standard_tag_ne_iff)⟩

/-- Settles O15: the tag selects the opcode, which alone says how many bytes are taken as the immediate. -/
theorem lengthIsToldFromTheTag : Obligations.LengthIsToldFromTheTag := by
  intro m o rest hm
  have hd := OpcodeMap.decode_tag hm o
  refine ⟨fun ho => ?_, ?_, ?_⟩
  · have h0 : o.immBytes = 0 := Opcode.immBytes_eq_zero ho
    exact ⟨_, Opcode.opcode_toInstr o _, by rw [decodeBytes_some hd (by omega), h0, List.drop_zero]⟩
  · rintro rfl hs
    exact decodeBytes_short hd hs
  · rintro rfl hs
    exact ⟨_, decodeBytes_some hd hs⟩

/-- Settles O16: nothing follows the tag of format B, and in format I byte `k` of the immediate does. -/
theorem encodingsHaveFormatBOrI : Obligations.EncodingsHaveFormatBOrI := by
  refine fun m i => ⟨encode_eq_tag, ?_⟩
  rintro v rfl
  exact ⟨length_encode m (.pushConst v), rfl, fun k hk => getElem?_leBytes v hk⟩

end Sys2Proof.Machine
end

section
/-! PROOFS. A table word placed at PC is the instruction the next step runs: O10. -/

namespace Sys2Proof.Machine

open Sys2Proof

/-- Reading back bytes that were written. -/
theorem Memory.readBytes_writeBytes {m : Memory} (hm : Memory.wf m = true) (a : Nat) (bs : List Byte) :
    Memory.readBytes (Memory.writeBytes m a bs) a bs.length = bs := by
  refine List.ext_getElem (Memory.length_readBytes _ _ _) fun k h hk => ?_
  rw [Memory.getElem_readBytes, Memory.read_writeBytes hm, dif_pos ⟨by omega, by omega⟩]
  congr 1
  omega

theorem decodeTableWord_eq_some {nbits w : Nat} {i : Instr} (h : decodeTableWord nbits w = some i) :
    ∃ rest, decodeBytes OpcodeMap.standard (tableBytes nbits w) = .instr i rest := by
  unfold decodeTableWord at h
  split at h
  · next rest hd => exact ⟨rest, Option.some.inj h ▸ hd⟩
  all_goals exact nomatch h

/-- The bytes the decoder may read at PC after a table word was placed there are the word's. -/
theorem State.window_withFetchWord {s : State} (hm : Memory.wf s.imem = true) (nbits w : Nat) :
    (s.withFetchWord nbits w).window = tableBytes nbits w := by
  have hlen : (tableBytes nbits w).length = maxInstrBytes := length_leBytes _ _
  have hmin : min maxInstrBytes (max s.len (s.pc + maxInstrBytes) - s.pc) = (tableBytes nbits w).length := by omega
  rw [State.window, State.withFetchWord_len, State.withFetchWord_pc, State.withFetchWord_imem, hmin,
    Memory.readBytes_writeBytes hm]

/-- A step executes what the window decodes to (40_control.md R110). -/
theorem step_of_decodeBytes {s : State} {i : Instr} {rest : List Byte} (hd : s.done = false)
    (hl : launchWf s.opcodeMap s.pcw s.len = true) (h : decodeBytes s.opcodeMap s.window = .instr i rest) :
    step s = exec i s := by
  rw [step_running hd hl, State.fetch, h]

/-- Settles O10: the launch stays legal with the longer stream, and the window is the word's bytes. -/
theorem withFetchWordRunsThatInstruction : Obligations.WithFetchWordRunsThatInstruction := by
  intro s nbits w i hdone hmap hm hlen hroom hword
  obtain ⟨rest, hdec⟩ := decodeTableWord_eq_some hword
  have hstream : max s.len (s.pc + maxInstrBytes) < 2 ^ s.pcw := max_lt hlen hroom
  have hlaunch : launchWf (s.withFetchWord nbits w).opcodeMap (s.withFetchWord nbits w).pcw (s.withFetchWord nbits w).len =
      true := by
    rw [State.withFetchWord_opcodeMap, hmap]
    exact launchWf_iff.2 ⟨by decide, hstream⟩
  refine step_of_decodeBytes (rest := rest) hdone hlaunch ?_
  rw [State.withFetchWord_opcodeMap, hmap, State.window_withFetchWord hm, hdec]

end Sys2Proof.Machine
end

section
/-! PROOFS. The opcode map is read for the FAULT_TAG of a fault alone: O58. -/

namespace Sys2Proof.Machine

open Sys2Proof

/-- Without its bits 15:8 the STATUS of a terminated machine is the one with FAULT_TAG 0x00. -/
theorem terminatedStatus_without_tag (c : Cause) (tag : Byte) :
    terminatedStatus c tag &&& 0x00FF#16 = terminatedStatus c 0x00#8 := by
  show (tag ++ 0#4 ++ c.code ++ 1#1) &&& (0#8 ++ BitVec.allOnes 4 ++ BitVec.allOnes 3 ++ BitVec.allOnes 1) =
    0#8 ++ 0#4 ++ c.code ++ 1#1
  simp only [BitVec.and_append, BitVec.and_zero, BitVec.and_allOnes]

/-- Settles O58: the depth checks and the completion do not read the map, and a fault reads it for its tag. -/
theorem opcodeMapChangesOnlyFaultTags : Obligations.OpcodeMapChangesOnlyFaultTags := by
  intro i s m
  refine exec_agree rfl (fun c => ?_) fun _ => ?_
  · simp only [State.raiseFault, terminatedStatus_without_tag]
  · cases i
    case div =>
      have htop : ({ s with opcodeMap := m } : State).top = s.top := rfl
      simp only [execute, htop]
      split
      · simp only [State.raiseFault, terminatedStatus_without_tag]
      · rfl
    all_goals rfl

end Sys2Proof.Machine
end

section
/-! PROOFS. The step and the run: when a step answers, what it runs, and that every run ends. O5 to O9. -/

namespace Sys2Proof.Machine

open Sys2Proof

/-! ### When a step answers, and when it stops (40_control.md R110, R111) -/

/-- Why a launch is no launch of this hardware (30_encoding.md R85, 00_scope.md R6). -/
theorem State.launchProblem_eq_some {s : State} {r : Refusal} :
    s.launchProblem = some r ↔
      (r = .badOpcodeMap ∧ s.opcodeMap.wf = false) ∨
      (r = .streamTooLong ∧ s.opcodeMap.wf = true ∧ 2 ^ s.pcw ≤ s.len) := by
  unfold State.launchProblem streamFits
  cases s.opcodeMap.wf with
  | false => simp [eq_comm]
  | true =>
    rcases Nat.lt_or_ge s.len (2 ^ s.pcw) with h | h
    · simp [h]
    · simp [Nat.not_lt.2 h, h, eq_comm]

/-- A step takes exactly one of three ways: DONE = 1, a bad launch, or a next state. -/
theorem step_trichotomy (s : State) :
    (s.done = true ∧ step s = .fault .terminated) ∨
    (s.done = false ∧ ∃ r, s.launchProblem = some r ∧ step s = .refused r) ∨
    (s.done = false ∧ s.launchProblem = none ∧ ∃ t, step s = .next t) := by
  cases hd : s.done with
  | true => exact .inl ⟨rfl, step_done hd⟩
  | false =>
    cases hl : s.launchProblem with
    | some r => exact .inr (.inl ⟨rfl, r, rfl, step_refused hd hl⟩)
    | none => exact .inr (.inr ⟨rfl, rfl, step_next hd (State.launchProblem_eq_none.1 hl)⟩)

/-- Settles O5: the invariant has the legal launch a running machine needs. -/
theorem runningStepAnswersNext : Obligations.RunningStepAnswersNext :=
  fun _ hinv hd => step_next hd hinv.launch

/-- Settles O6, by the three ways a step can go. -/
theorem stepStopsOnlyWhenDoneOrBadlyLaunched : Obligations.StepStopsOnlyWhenDoneOrBadlyLaunched := by
  intro s
  simp only [← State.launchProblem_eq_some]
  rcases step_trichotomy s with ⟨hd, hs⟩ | ⟨hd, r, hl, hs⟩ | ⟨hd, hl, t, hs⟩
  · simp [hd, hs, eq_comm]
  · simp [hd, hl, hs]
  · simp [hd, hl, hs]

/-! ### The instruction a step runs (40_control.md R110, 30_encoding.md R87) -/

/-- Settles O8: the fetch answers what the window decodes to. -/
theorem stepRunsTheDecodedInstruction : Obligations.StepRunsTheDecodedInstruction :=
  fun _ _ _ hd hl h => step_of_decodeBytes hd hl h

theorem length_encode_le (m : OpcodeMap) (i : Instr) : (encode m i).length ≤ maxInstrBytes := by
  rw [length_encode, Opcode.length_eq, maxInstrBytes]
  split <;> omega

/-- Bytes that stand at PC, no more than the longest instruction has, are the first bytes of the window. -/
theorem State.window_eq_append {s : State} {bs : List Byte} (hlen : bs.length ≤ maxInstrBytes)
    (h : ∀ (k : Nat) (hk : k < bs.length), s.imemByte (s.pc + k) = some bs[k]) : ∃ rest, s.window = bs ++ rest := by
  have hread : Memory.readBytes s.imem s.pc bs.length = bs := by
    refine List.ext_getElem (Memory.length_readBytes _ _ _) fun k hk hk' => ?_
    rw [Memory.getElem_readBytes]
    exact (State.imemByte_eq_some.1 (h k hk')).2
  have hstream : bs.length ≤ s.len - s.pc := by
    by_contra hlt
    have hlast := (State.imemByte_eq_some.1 (h (bs.length - 1) (by omega))).1
    omega
  have htake : s.window.take bs.length = bs := by
    rw [State.window, Memory.take_readBytes _ _ _ _ (le_min hlen hstream), hread]
  exact ⟨s.window.drop bs.length, by rw [← List.take_append_drop bs.length s.window, htake, List.drop_left]⟩

/-- Settles O9: the window begins with the encoding, which decodes to the instruction whatever follows. -/
theorem stepRunsTheEncodedInstruction : Obligations.StepRunsTheEncodedInstruction := by
  intro s i hd hl hbytes
  obtain ⟨rest, hw⟩ := State.window_eq_append (length_encode_le s.opcodeMap i) hbytes
  refine step_of_decodeBytes (rest := rest) hd hl ?_
  rw [hw, decodeBytes_encode (launchWf_iff.1 hl).1]

/-! ### Every run ends (40_control.md R111) -/

theorem Opcode.length_pos (o : Opcode) : 0 < o.length := by
  rw [Opcode.length]
  omega

/-- A step ends the run with a fault or brings PC nearer to the end of the stream, which stays where it is. -/
theorem step_done_or_pc_lt {s t : State} (h : step s = .next t) : t.done = true ∨ (s.pc < t.pc ∧ t.len = s.len) := by
  obtain ⟨-, -, ⟨c, tag, -, rfl⟩ | ⟨i, -, -, hi, rfl⟩⟩ := step_outcome h
  · exact .inl (State.raiseFault_done s c tag)
  · obtain ⟨-, -, hpc⟩ := execute_control hi.divisor
    obtain ⟨-, hlen, -, -⟩ := execute_inputs i s
    have := Opcode.length_pos i.opcode
    exact .inr ⟨by omega, hlen⟩

/-- By induction on the bound: a machine in the invariant has PC at most `L`, so it cannot keep stepping. -/
theorem run_reaches_done (n : Nat) {s : State} (hinv : RunInv s) (hn : s.len + 1 - s.pc ≤ n) :
    ∃ (k : Nat) (t : State), k ≤ n ∧ Host.Core.run Sys2Proof.core k s = .next t ∧ t.done = true := by
  induction n generalizing s with
  | zero =>
    have := hinv.pcInStream
    omega
  | succ n ih =>
    cases hd : s.done with
    | true => exact ⟨0, s, Nat.zero_le _, run_zero s, hd⟩
    | false =>
      obtain ⟨t, ht⟩ := step_next hd hinv.launch
      rcases step_done_or_pc_lt ht with hdone | ⟨hpc, hlen⟩
      · exact ⟨1, t, Nat.le_add_left 1 n, run_succ_of_next 0 ht, hdone⟩
      · obtain ⟨k, u, hk, hrun, hu⟩ := ih (hinv.after_step ht) (by omega)
        exact ⟨k + 1, u, Nat.succ_le_succ hk, (run_succ_of_next k ht).trans hrun, hu⟩

/-- Settles O7, by `run_reaches_done` at the bound `L + 1 - PC` itself. -/
theorem everyRunTerminatesWithinStreamLength : Obligations.EveryRunTerminatesWithinStreamLength := by
  intro s hinv
  obtain ⟨k, t, hk, hrun, hdone⟩ := run_reaches_done _ hinv le_rfl
  exact ⟨k, t, hk, hrun, hdone, step_done hdone⟩

end Sys2Proof.Machine
end

section
/-! PROOFS. The depth of the stack, and the two instructions that leave the stack alone. O57, O28, O29. -/

namespace Sys2Proof.Machine

open Sys2Proof

/-- Settles O57: a fault leaves SP, and a completion moves the depth by the stack effect. -/
theorem depthFollowsTheStackEffect : Obligations.DepthFollowsTheStackEffect := by
  intro s t i hsp hd h
  refine ⟨State.depth_eq hsp, (State.spInRange_iff s).1 hsp, ?_⟩
  rcases exec_outcome h with ⟨c, hc, -, rfl⟩ | ⟨hi, rfl⟩
  · exact ⟨hsp, fun _ => rfl, fun hnf => absurd (State.raiseFault_faulted _ hc) hnf⟩
  · exact ⟨execute_spInRange hi, fun hf => absurd hf (execute_not_faulted hd hi),
      fun _ => execute_depth hi.operands hi.room hi.divisor⟩

/-- An instruction that neither pops nor pushes completes on every stack of 10_state.md R27. -/
theorem exec_of_no_stackEffect {i : Instr} {s : State} (h : stackEffect i.opcode = ⟨0, 0⟩) (hsp : s.spInRange) :
    exec i s = .next (execute i s) := by
  rw [exec_eq, State.checked_pass (by simp [h]) (by simpa [h] using (State.spInRange_iff s).1 hsp)]

/-- Settles O28: HALT passes the depth checks, moves PC and writes STATUS. -/
theorem haltTerminatesCleanly : Obligations.HaltTerminatesCleanly :=
  ⟨rfl, fun _ hsp => exec_of_no_stackEffect (i := .halt) rfl hsp⟩

/-- Settles O29: NOP passes the depth checks and moves PC. -/
theorem nopOnlyMovesPc : Obligations.NopOnlyMovesPc :=
  ⟨rfl, fun _ hsp => exec_of_no_stackEffect (i := .nop) rfl hsp⟩

end Sys2Proof.Machine
end

section
/-! PROOFS. The machine refines the machine on a list stack: the depth checks are the list machine's own faults, and what
completes does to the slots and SP what the list machine does to its list. O59. -/

namespace Sys2Proof.Machine

open Sys2Proof

/-! ### The faults of the list machine -/

theorem ListMachine.binary_underflow {m : ListMachine} (tag : Byte) (f : Value → Value → Value) (h : m.stack.length < 2) :
    m.binary tag f = m.fault 3#3 tag := by
  unfold ListMachine.binary
  split
  · next heq => simp [heq] at h
  · rfl
  · rfl

/-- With fewer values than it pops, an instruction of the list machine faults with StackUnderflow (60_exceptions.md R216). -/
theorem ListMachine.exec_underflow {m : ListMachine} {i : Instr} (tag : Byte)
    (h : m.stack.length < (stackEffect i.opcode).pops) : m.exec tag i = m.fault 3#3 tag := by
  cases i with
  | halt | nop | pushM1 | push0 | push1 | push2 | pushConst | loadR1 | loadR2 => exact absurd h (Nat.not_lt_zero _)
  | add | sub | mul => exact ListMachine.binary_underflow tag _ h
  | div =>
    simp only [ListMachine.exec]
    split
    · next heq => simp [heq, stackEffect, Instr.opcode] at h
    · rfl
    · rfl
  | neg | storeR1 | storeR2 | print =>
    have hnil : m.stack = [] := List.length_eq_zero_iff.1 (Nat.lt_one_iff.1 h)
    simp only [ListMachine.exec, hnil]

/-- On at most 256 values, an instruction that would leave more pushes without popping, and the list machine's push faults with
StackOverflow (60_exceptions.md R217). -/
theorem ListMachine.exec_overflow {m : ListMachine} {i : Instr} (tag : Byte) (hle : m.stack.length ≤ 256)
    (h₁ : (stackEffect i.opcode).pops ≤ m.stack.length)
    (h₂ : 256 < m.stack.length - (stackEffect i.opcode).pops + (stackEffect i.opcode).pushes) :
    m.exec tag i = m.fault 4#3 tag := by
  cases i <;> simp only [Instr.opcode, stackEffect] at h₁ h₂
  case pushM1 | push0 | push1 | push2 | pushConst | loadR1 | loadR2 => exact if_pos (by omega)
  all_goals omega

/-! ### A state of the machine as a state of the list machine -/

section ToList

variable {s : State}

theorem State.toList_raiseFault (c : Cause) (tag : Byte) : (s.raiseFault c tag).toList = s.toList.fault c.code tag := rfl

theorem State.toList_push {o : Opcode} (v : Value) (tag : Byte) (h : s.depth ≤ 255) :
    ((s.push v).advance o).toList = s.toList.push tag o.length v := by
  have hroom : ¬256 ≤ s.toList.stack.length := by
    rw [State.toList, State.length_stackList]
    omega
  rw [ListMachine.push, if_neg hroom]
  simp [State.toList, State.stackList_push v h]

/-- A push onto what a pop left of a legal stack. -/
theorem State.stackList_push_drop (v : Value) (h₁ : 1 ≤ s.depth) (h₂ : s.depth ≤ 256) :
    (s.drop.push v).stackList = v :: s.drop.stackList := by
  have := State.depth_drop h₁
  exact State.stackList_push v (by omega)

/-- The two top values and the rest. -/
theorem State.stackList_eq_cons_cons (h : 2 ≤ s.depth) :
    s.stackList = s.top :: s.drop.top :: s.drop.drop.stackList := by
  have := State.depth_drop (s := s) (by omega)
  rw [State.stackList_eq_cons (by omega), State.stackList_eq_cons (s := s.drop) (by omega)]

theorem State.toList_binary {o : Opcode} (f : Value → Value → Value) (tag : Byte) (ho : o ≠ .pushConst)
    (h₁ : 2 ≤ s.depth) (h₂ : s.depth ≤ 256) : ((s.binary f).advance o).toList = s.toList.binary tag f := by
  have := State.depth_drop (s := s) (by omega)
  have hpush : (s.binary f).stackList = f s.drop.top s.top :: s.drop.drop.stackList :=
    State.stackList_push_drop (s := s.drop) _ (by omega) (by omega)
  simp [ListMachine.binary, State.toList, State.stackList_eq_cons_cons h₁, hpush, ho]

end ToList

/-- What completes, and DIV's fault on a zero divisor, on the list stack. -/
theorem execute_toList {i : Instr} {s : State} (hle : s.depth ≤ 256) (hpop : (stackEffect i.opcode).pops ≤ s.depth)
    (hroom : s.depth - (stackEffect i.opcode).pops + (stackEffect i.opcode).pushes ≤ 256) :
    (execute i s).toList = s.toList.exec (s.tagOf i.opcode) i := by
  cases i <;> simp only [Instr.opcode, stackEffect] at hpop hroom
  case halt | nop => rfl
  case pushM1 | push0 | push1 | push2 | pushConst | loadR1 | loadR2 => exact State.toList_push _ _ (by omega)
  case add | sub | mul => exact State.toList_binary _ _ nofun hpop hle
  case div =>
    have hstack : s.toList.stack = s.top :: s.drop.top :: s.drop.drop.stackList := State.stackList_eq_cons_cons hpop
    simp only [execute, ListMachine.exec, hstack]
    split
    · rfl
    · exact State.toList_binary _ _ nofun hpop hle
  case neg =>
    have hpush : (s.unary fneg64).stackList = fneg64 s.top :: s.drop.stackList := State.stackList_push_drop _ hpop hle
    have hstack : s.toList.stack = s.top :: s.drop.stackList := State.stackList_eq_cons hpop
    simp only [ListMachine.exec, hstack]
    exact congrArg (fun l => { s.toList with pc := s.pc + 1, stack := l }) hpush
  case storeR1 | storeR2 | print =>
    have hstack : s.toList.stack = s.top :: s.drop.stackList := State.stackList_eq_cons hpop
    simp only [ListMachine.exec, hstack]
    rfl

/-- Settles O59, by the three things the depth checks can do. -/
theorem execRefinesTheListMachine : Obligations.ExecRefinesTheListMachine := by
  intro i s hsp
  have hle : s.depth ≤ 256 := (State.spInRange_iff s).1 hsp
  have hlen : s.toList.stack.length = s.depth := State.length_stackList s
  obtain ⟨t, ht⟩ := exec_next i s
  refine ⟨t, ht, ?_, ?_⟩
  · rcases exec_outcome ht with ⟨c, -, -, rfl⟩ | ⟨hi, rfl⟩
    · exact hsp
    · exact execute_spInRange hi
  · rw [exec_eq, Host.Outcome.next.injEq] at ht
    subst ht
    rcases State.checked_cases s i.opcode (execute i) with ⟨h₁, h⟩ | ⟨h₁, h₂, h⟩ | ⟨h₁, h₂, h⟩ <;> rw [h]
    · exact (ListMachine.exec_underflow _ (hlen ▸ h₁)).symm
    · exact (ListMachine.exec_overflow _ (hlen ▸ hle) (hlen ▸ h₁) (hlen ▸ h₂)).symm
    · exact execute_toList hle h₁ h₂

end Sys2Proof.Machine
end

section
/-! PROOFS. The push instructions: an instruction that pushes one value completes on a stack with room and faults on a full one.
O30, O31, O32, and PUSH_CONST followed by PRINT, O39. -/

namespace Sys2Proof.Machine

open Sys2Proof

section Push

variable {i : Instr} {s : State} {v : Value}

/-! ### Completing, and the one fault of a push (40_control.md R110, R112) -/

theorem exec_of_completes (h : Completes i s) : exec i s = .next (execute i s) := by
  rw [exec_eq, State.checked_pass h.operands h.room]

theorem State.raiseFault_eq_afterFault (s : State) (c : Cause) (tag : Byte) :
    s.raiseFault c tag = s.afterFault c.code tag := rfl

/-- A stack with room is one whose SP is -1 to 254 (10_state.md R27). -/
theorem State.depth_le_of_room (h₁ : -1 ≤ s.sp.toInt) (h₂ : s.sp.toInt ≤ 254) : s.depth ≤ 255 := by
  have := State.depth_eq (s := s) ⟨h₁, by omega⟩
  omega

theorem Completes.of_push (hi : stackEffect i.opcode = ⟨0, 1⟩) (h₁ : -1 ≤ s.sp.toInt) (h₂ : s.sp.toInt ≤ 254) :
    Completes i s where
  operands := by simp [hi]
  room := by
    have := State.depth_le_of_room h₁ h₂
    simp only [hi]
    omega
  divisor := by
    rintro rfl
    exact nomatch hi

/-- On a full stack a push faults with StackOverflow under its own tag (60_exceptions.md R217). -/
theorem exec_push_full (hi : stackEffect i.opcode = ⟨0, 1⟩) (h : s.sp.toInt = 255) :
    exec i s = .next (s.afterFault 4#3 (s.tagOf i.opcode)) := by
  have hd := State.depth_eq (s := s) ⟨by omega, by omega⟩
  rw [exec_eq, State.checked_overflow (by simp [hi]) (by simp only [hi]; omega), State.raiseFault_eq_afterFault, Cause.code]

/-! ### What a push changes -/

/-- `Push(v)` and the move of PC, in the spec's terms (20_memory.md R57). -/
theorem State.push_advance_pushes (o : Opcode) (v : Value) (h₁ : -1 ≤ s.sp.toInt) (h₂ : s.sp.toInt ≤ 254) :
    Pushes o.length v s ((s.push v).advance o) := by
  have hsp := sp_add_toInt h₁ h₂
  refine ⟨rfl, rfl, hsp, fun j => ?_⟩
  rw [State.slot_advance, State.slot_push]
  simp only [slotOf_eq_iff (sp := s.sp + 1#9) (by omega), hsp]

/-- An instruction that pushes `v` does so on every stack with room. -/
theorem exec_pushes (hi : stackEffect i.opcode = ⟨0, 1⟩) (he : execute i s = (s.push v).advance i.opcode)
    (h₁ : -1 ≤ s.sp.toInt) (h₂ : s.sp.toInt ≤ 254) : ∃ t, exec i s = .next t ∧ Pushes i.opcode.length v s t :=
  ⟨_, exec_of_completes (.of_push hi h₁ h₂), he ▸ State.push_advance_pushes _ v h₁ h₂⟩

/-! ### Fetching an instruction whose tag is known -/

/-- Where the tag at PC is an instruction's, the fetch is cut short or has all its bytes (40_control.md R110). -/
theorem State.fetch_of_decode {tag : Byte} {o : Opcode} (hb : s.imemByte s.pc = some tag)
    (hd : s.opcodeMap.decode tag = some o) :
    (s.len < s.pc + o.length ∧ s.fetch = .fault .truncatedImmediate tag) ∨
    (s.pc + o.length ≤ s.len ∧
      s.fetch = .instr (o.toInstr (BitVec.ofNat 64 (leNat (Memory.readBytes s.imem (s.pc + 1) o.immBytes))))) := by
  rcases State.fetch_cases s with ⟨hp, -⟩ | ⟨tag', hb', hd', -⟩ | ⟨tag', o', hb', hd', hlen, hf⟩ |
    ⟨tag', o', hb', hd', hlen, hf⟩
  · exact nomatch hb.symm.trans (State.imemByte_of_le hp)
  all_goals obtain rfl := Option.some.inj (hb.symm.trans hb')
  · exact nomatch hd.symm.trans hd'
  all_goals obtain rfl := Option.some.inj (hd.symm.trans hd')
  · exact .inl ⟨hlen, hf⟩
  · exact .inr ⟨hlen, hf⟩

/-- PUSH_CONST's tag at PC: the step faults with TruncatedImmediate, or executes PUSH_CONST with the 8 bytes after the tag
(41_push.md R124). -/
theorem step_at_pushConst (hd : s.done = false) (hl : launchWf s.opcodeMap s.pcw s.len = true)
    (hb : s.imemByte s.pc = some s.opcodeMap.pushConst) :
    (s.len < s.pc + 9 ∧ step s = .next (s.afterFault 5#3 s.opcodeMap.pushConst)) ∨
    (s.pc + 9 ≤ s.len ∧ ∃ imm : Value, s.memRead (s.pc + 1) 8 = some imm ∧ step s = exec (.pushConst imm) s) := by
  have hdec : s.opcodeMap.decode s.opcodeMap.pushConst = some .pushConst :=
    OpcodeMap.decode_tag (launchWf_iff.1 hl).1 .pushConst
  rw [step_running hd hl]
  rcases State.fetch_of_decode hb hdec with ⟨hlen, hf⟩ | ⟨hlen, hf⟩ <;> rw [hf]
  · exact .inl ⟨hlen, rfl⟩
  · exact .inr ⟨hlen, _, State.memRead_of_le (by rw [Opcode.length, Opcode.immBytes] at hlen; omega), rfl⟩

/-! ### A push and then a pop -/

theorem State.stackList_drop_push (v : Value) (h : s.depth ≤ 255) : (s.push v).drop.stackList = s.stackList := by
  have hd : (s.push v).depth = s.depth + 1 := State.depth_push v (by omega)
  have hcons := State.stackList_eq_cons (s := s.push v) (by omega)
  rw [State.stackList_push v h] at hcons
  exact (List.cons.inj hcons).2.symm

/-- PRINT completes on every stack with a value (44_output.md R201). -/
theorem Completes.of_print (h₁ : 1 ≤ s.depth) (h₂ : s.depth ≤ 256) : Completes .print s where
  operands := h₁
  room := (Nat.sub_le s.depth 1).trans h₂
  divisor := nofun

end Push

/-! ### The obligations -/

/-- Settles O30: on a stack with room each short push is a push of its constant, and on a full one it overflows. -/
theorem shortPushesPushTheirConstants : Obligations.ShortPushesPushTheirConstants := by
  refine ⟨⟨rfl, rfl, rfl, rfl⟩, fun s ⟨hge, _⟩ => ⟨fun hle => ?_, fun hfull => ?_⟩⟩
  · exact ⟨exec_pushes (i := .pushM1) rfl rfl hge hle, exec_pushes (i := .push0) rfl rfl hge hle,
      exec_pushes (i := .push1) rfl rfl hge hle, exec_pushes (i := .push2) rfl rfl hge hle⟩
  · exact ⟨exec_push_full (i := .pushM1) rfl hfull, exec_push_full (i := .push0) rfl hfull,
      exec_push_full (i := .push1) rfl hfull, exec_push_full (i := .push2) rfl hfull⟩

/-- Settles O32: PUSH_CONST is a push of its immediate. -/
theorem pushConstPushesEveryPattern : Obligations.PushConstPushesEveryPattern :=
  fun _ imm hge hle => exec_pushes (i := .pushConst imm) rfl rfl hge hle

/-- Settles O31: the step is cut short or is PUSH_CONST's own execution, which pushes or overflows. -/
theorem pushConstPushesTheStreamImmediate : Obligations.PushConstPushesTheStreamImmediate := by
  refine ⟨rfl, fun s hd hl hb ⟨hge, _⟩ => ?_⟩
  rcases step_at_pushConst hd hl hb with ⟨hcut, hstep⟩ | ⟨hwhole, imm, himm, hstep⟩
  · exact ⟨fun _ => hstep, fun _ => by omega, fun _ => by omega⟩
  · refine ⟨fun _ => by omega, fun _ hfull => ?_, fun _ hle => ⟨imm, himm, hstep.symm, ?_⟩⟩ <;> rw [hstep]
    · exact exec_push_full (i := .pushConst imm) rfl hfull
    · exact pushConstPushesEveryPattern s imm hge hle

/-- Settles O39: PRINT pops what PUSH_CONST pushed, so the list of values is the one before both. -/
theorem pushConstThenPrintRoundTrips : Obligations.PushConstThenPrintRoundTrips := by
  intro s v hge hle
  have hroom := State.depth_le_of_room hge hle
  have hdepth : (execute (.pushConst v) s).depth = s.depth + 1 := State.depth_push v (by omega)
  have hpush : Completes (.pushConst v) s := .of_push rfl hge hle
  have hprint : Completes .print (execute (.pushConst v) s) := .of_print (by omega) (by omega)
  have htop : (execute (.pushConst v) s).top = v := State.drop_push_top s v
  have hsp : s.sp + 1#9 - 1#9 = s.sp := BitVec.add_sub_cancel s.sp 1#9
  refine ⟨_, _, exec_of_completes hpush, exec_of_completes hprint, ?_, rfl, State.stackList_drop_push v hroom, hsp, rfl, rfl,
    rfl, rfl⟩
  rw [execute_out, if_pos rfl, htop, execute_out, if_neg nofun]

end Sys2Proof.Machine
end

section
/-! PROOFS. The rounded operations on finite operands: each is the exact result, in units of 2^-1074, rounded once
(42_arithmetic.md R141, R142). O41, O42, O43, O44. -/

namespace Sys2Proof.Machine

open Sys2Proof

/-! ### Numbers and zeros -/

/-- The number of a value, as its sign and its magnitude (42_arithmetic.md R140). -/
theorem realValue_eq_sgn (v : Value) : realValue v = sgn (fpSign v) * fpMag v * unit := by
  rw [realValue_eq, fpInt, sgn]
  split <;> push_cast <;> ring

theorem sgn_xor (p q : Bool) : sgn (p ^^ q) = sgn p * sgn q := by
  cases p <;> cases q <;> rfl

theorem div_sgn (x : ℚ) (s : Bool) : x / sgn s = x * sgn s := by
  cases s <;> simp [sgn, div_neg]

theorem div_unitsPerOne (x : ℚ) : x / unitsPerOne = x * unit := by
  rw [div_eq_mul_inv, eq_inv_of_mul_eq_one_right unitsPerOne_mul_unit]

theorem realValue_fneg64 (a : Value) : realValue (fneg64 a) = -realValue a := by
  rw [realValue_eq, realValue_eq, fpInt_fneg64]
  push_cast
  ring

theorem fpInt_zeroOf (s : Bool) : fpInt (zeroOf s) = 0 := by cases s <;> decide

theorem fpSign_zeroOf (s : Bool) : fpSign (zeroOf s) = s := by cases s <;> decide

theorem fpInt_nonpos {v : Value} (h : fpSign v = true) : fpInt v ≤ 0 := by
  rw [fpInt, if_pos h]
  omega

theorem fneg64_eq_iff {a b : Value} : fneg64 a = b ↔ a = fneg64 b := by
  constructor
  · rintro rfl
    exact (fneg64_fneg64 a).symm
  · rintro rfl
    exact fneg64_fneg64 b

/-- Numbers that cancel are both negative only as two zeros -0. -/
theorem both_negative_iff_of_cancel {a b : Value} (h : fpInt a + fpInt b = 0) :
    (fpSign a && fpSign b) = decide (a = zeroOf true ∧ b = zeroOf true) := by
  rw [Bool.eq_iff_iff, Bool.and_eq_true, decide_eq_true_iff]
  constructor
  · rintro ⟨ha, hb⟩
    have hna := fpInt_nonpos ha
    have hnb := fpInt_nonpos hb
    exact ⟨ha ▸ eq_zeroOf_of_fpInt (by omega), hb ▸ eq_zeroOf_of_fpInt (by omega)⟩
  · rintro ⟨rfl, rfl⟩
    exact ⟨fpSign_zeroOf true, fpSign_zeroOf true⟩

/-! ### Sum and difference -/

/-- Settles O41: `fadd64` rounds the sum of the two whole numbers of units, and a sum of 0 has a sign bit only if both operands
have one. -/
theorem addIsCorrectlyRounded : Obligations.AddIsCorrectlyRounded := by
  intro a b ha hb
  have hsum : realValue a + realValue b = ((fpInt a + fpInt b : Int) : ℚ) * unit := by
    rw [realValue_eq, realValue_eq, Int.cast_add, add_mul]
  rw [fadd64_finite ha hb, hsum]
  refine ⟨roundsTo_roundInt _ _, fun hzero => ?_⟩
  have hcancel : fpInt a + fpInt b = 0 := Int.cast_eq_zero.1 ((mul_eq_zero_iff_right unit_pos.ne').1 hzero)
  rw [hcancel, roundInt_zero, both_negative_iff_of_cancel hcancel]

/-- On finite values a difference is the sum with the negated operand. -/
theorem fsub64_eq_fadd64_fneg64 {a b : Value} (ha : FiniteValue a) (hb : FiniteValue b) :
    fsub64 a b = fadd64 a (fneg64 b) := by
  rw [fsub64_finite ha hb, fadd64_finite ha ((finiteValue_fneg64 b).2 hb), fpInt_fneg64, fpSign_fneg64, sub_eq_add_neg]

/-- Settles O42, by O41 for `a` and `-b`. -/
theorem subIsCorrectlyRounded : Obligations.SubIsCorrectlyRounded := by
  intro a b ha hb
  have hneg : fneg64 b = zeroOf true ↔ b = zeroOf false := fneg64_eq_iff
  have hadd := addIsCorrectlyRounded a (fneg64 b) ha ((finiteValue_fneg64 b).2 hb)
  simpa only [realValue_fneg64, ← sub_eq_add_neg, ← fsub64_eq_fadd64_fneg64 ha hb, hneg] using hadd

/-! ### Product and quotient -/

/-- Settles O43: the product of the signs, and the product of the magnitudes over the units in 1. -/
theorem mulIsCorrectlyRounded : Obligations.MulIsCorrectlyRounded := by
  intro a b ha hb
  rw [fmul64_finite ha hb]
  refine ⟨?_, fpSign_fpPack _ (roundUnits_lt _ _)⟩
  have hprod : realValue a * realValue b =
      (sgn (fpSign a ^^ fpSign b) : ℚ) * ((fpMag a * fpMag b : Nat) / unitsPerOne) * unit := by
    rw [realValue_eq_sgn, realValue_eq_sgn, sgn_xor, div_unitsPerOne]
    push_cast
    ring
  rw [hprod]
  exact roundsTo_fpPack _ _ _ unitsPerOne_pos

/-- Settles O44: the quotient of the signs, which is their product, and of the magnitudes times the units in 1. -/
theorem divIsCorrectlyRounded : Obligations.DivIsCorrectlyRounded := by
  intro a b ha hb hz
  rw [fdiv64_finite ha hb hz]
  refine ⟨?_, fpSign_fpPack _ (roundUnits_lt _ _)⟩
  have hquot : realValue a / realValue b =
      (sgn (fpSign a ^^ fpSign b) : ℚ) * ((fpMag a * unitsPerOne : Nat) / fpMag b) * unit := by
    rw [realValue_eq_sgn, realValue_eq_sgn, mul_div_mul_right _ _ unit_pos.ne', mul_div_mul_comm, div_sgn, sgn_xor]
    push_cast
    linear_combination -(sgn (fpSign a) * sgn (fpSign b) * (fpMag a / fpMag b) : ℚ) * unitsPerOne_mul_unit
  rw [hquot]
  exact roundsTo_fpPack _ _ _ (fpMag_pos hz)

end Sys2Proof.Machine
end

section
/-! PROOFS. Infinities, NaNs and zeros through the operations (42_arithmetic.md R141, R143, R151, R152). O45 to O49. -/

namespace Sys2Proof.Machine

open Sys2Proof

/-! ### NEG and isZero -/

theorem realValue_eq_zero_iff (v : Value) : realValue v = 0 ↔ SignedZero v := by
  rw [realValue_eq, mul_eq_zero_iff_right unit_pos.ne', Int.cast_eq_zero]
  constructor
  · intro h
    rw [eq_zeroOf_of_fpInt h]
    cases fpSign v
    · exact .inl rfl
    · exact .inr rfl
  · rintro (rfl | rfl)
    · exact fpInt_zeroOf false
    · exact fpInt_zeroOf true

/-- Settles O47: the pattern, the two zeros and the number 0 are one condition, which neither an infinity nor a NaN meets. -/
theorem isZeroHoldsOfTheTwoZeros : Obligations.IsZeroHoldsOfTheTwoZeros := by
  intro v
  have hzero := isZero_iff_signedZero v
  refine ⟨by rw [isZero, beq_iff_eq], hzero, fun _ => by rw [hzero, realValue_eq_zero_iff], ?_⟩
  rintro (h | h)
  · exact isZero_of_infinite h
  · refine isZero_false fun hz => ?_
    rw [signedZero_iff] at hz
    rw [notANumber_iff] at h
    omega

/-- Settles O48: the two numbers of units cancel, and the two signs differ. -/
theorem negIsTheAdditiveInverse : Obligations.NegIsTheAdditiveInverse := by
  intro a ha
  have hneg : FiniteValue (fneg64 a) := (finiteValue_fneg64 a).2 ha
  have hcancel : fadd64 a (fneg64 a) = zeroOf false := by
    rw [fadd64_finite ha hneg, fpInt_fneg64, add_neg_cancel, fpSign_fneg64, Bool.and_not_self, roundInt_zero]
  exact ⟨hneg, realValue_fneg64 a, fneg64_fneg64 a, hcancel, (fsub64_eq_fadd64_fneg64 ha ha).trans hcancel⟩

/-! ### What an operation is on operands that are no NaN -/

/-- The operation on operands that are no NaN, `none` where it is invalid. -/
def opNumbers : AluOp → Value → Value → Option Value
  | .add, a, b => sumNumbers a b
  | .sub, a, b => sumNumbers a (fneg64 b)
  | .mul, a, b => mulNumbers a b
  | .div, a, b => divNumbers a b

theorem fpOp_eq (op : AluOp) (a b : Value) : fpOp op a b = orNan op a b (opNumbers op a b) := by
  cases op <;> rfl

theorem opNumbers_not_notANumber {op : AluOp} {a b v : Value} (h : opNumbers op a b = some v) : ¬NotANumber v := by
  cases op with
  | add | sub => exact sumNumbers_not_notANumber h
  | mul => exact mulNumbers_not_notANumber h
  | div => exact divNumbers_not_notANumber h

/-- An operation gives `nanOf` for a NaN operand and where it is invalid, and its number otherwise (42_arithmetic.md R143). -/
theorem fpOp_cases (op : AluOp) (a b : Value) :
    ((NotANumber a ∨ NotANumber b ∨ opNumbers op a b = none) ∧ fpOp op a b = nanOf op a b) ∨
    (¬NotANumber a ∧ ¬NotANumber b ∧ opNumbers op a b = some (fpOp op a b)) := by
  rw [fpOp_eq, orNan, ← isNaN_iff, ← isNaN_iff]
  cases isNaN a <;> cases isNaN b <;> cases opNumbers op a b <;> simp

theorem fpOp_of_some {op : AluOp} {a b v : Value} (ha : isNaN a = false) (hb : isNaN b = false)
    (h : opNumbers op a b = some v) : fpOp op a b = v := by
  rw [fpOp_eq, orNan, ha, hb, h]
  rfl

/-- A result that is no NaN is the operation's number on operands that are none. -/
theorem opNumbers_of_result {op : AluOp} {a b : Value} (h : ¬NotANumber (fpOp op a b)) :
    isNaN a = false ∧ isNaN b = false ∧ opNumbers op a b = some (fpOp op a b) := by
  rcases fpOp_cases op a b with ⟨-, hnan⟩ | ⟨ha, hb, hsome⟩
  · exact absurd (hnan ▸ notANumber_nanOf op a b) h
  · rw [← isNaN_iff] at ha hb
    exact ⟨by simpa using ha, by simpa using hb, hsome⟩

/-! ### Invalid operations -/

/-- Two infinities are equal exactly when their signs are. -/
theorem infinite_eq_iff {a b : Value} (ha : InfiniteValue a) (hb : InfiniteValue b) : a = b ↔ fpSign a = fpSign b := by
  rw [infinite_iff] at ha hb
  exact ⟨congrArg fpSign, fun h => fp_ext h (by omega)⟩

theorem infiniteValue_fneg64 (a : Value) : InfiniteValue (fneg64 a) ↔ InfiniteValue a := by
  rw [← isInf_iff, isInf_fneg64, isInf_iff]

theorem sumNumbers_eq_none_iff (a b : Value) :
    sumNumbers a b = none ↔ InfiniteValue a ∧ InfiniteValue b ∧ fpSign a ≠ fpSign b := by
  rw [← isInf_iff, ← isInf_iff]
  unfold sumNumbers
  cases isInf a <;> cases isInf b <;> simp

theorem mulNumbers_eq_none_iff (a b : Value) :
    mulNumbers a b = none ↔ (SignedZero a ∧ InfiniteValue b) ∨ (InfiniteValue a ∧ SignedZero b) := by
  have hne : ∀ v, isInf v = true → isZero v = false := fun v hv => isZero_of_infinite ((isInf_iff v).1 hv)
  rw [← isInf_iff, ← isInf_iff, ← isZero_iff_signedZero, ← isZero_iff_signedZero]
  unfold mulNumbers
  cases ha : isInf a <;> cases hb : isInf b <;> simp [hne, ha, hb]

theorem divNumbers_eq_none_iff {a b : Value} (hz : ¬SignedZero b) :
    divNumbers a b = none ↔ InfiniteValue a ∧ InfiniteValue b := by
  rw [← isInf_iff, ← isInf_iff]
  unfold divNumbers
  cases isInf a <;> cases isInf b <;> simp [isZero_false hz]

/-- What has no number is what 42_arithmetic.md R143 calls invalid. -/
theorem opNumbers_eq_none_iff {op : AluOp} {a b : Value} (hz : op = .div → ¬SignedZero b) :
    opNumbers op a b = none ↔ InvalidOperation op a b := by
  cases op with
  | add =>
    refine (sumNumbers_eq_none_iff a b).trans (and_congr_right fun ha => and_congr_right fun hb => ?_)
    exact not_congr (infinite_eq_iff ha hb).symm
  | sub =>
    have hnone := sumNumbers_eq_none_iff a (fneg64 b)
    rw [infiniteValue_fneg64] at hnone
    refine hnone.trans (and_congr_right fun ha => and_congr_right fun hb => ?_)
    rw [infinite_eq_iff ha hb, fpSign_fneg64, Bool.ne_not]
  | mul => exact mulNumbers_eq_none_iff a b
  | div => exact divNumbers_eq_none_iff (hz rfl)

/-- Settles O46: an operation has no number exactly where it is invalid. -/
theorem nanResultsAreQuietNans : Obligations.NanResultsAreQuietNans := by
  intro op a b hz
  rw [← opNumbers_eq_none_iff hz]
  refine ⟨fun h => ?_, nanOf_quiet op a b, fun h => ?_⟩ <;>
    rcases fpOp_cases op a b with ⟨hnone, hnan⟩ | ⟨ha, hb, hsome⟩
  · exact hnan
  · rcases h with h | h | h
    · exact absurd h ha
    · exact absurd h hb
    · exact nomatch h.symm.trans hsome
  · exact hnone
  · exact absurd h (opNumbers_not_notANumber hsome)

/-! ### Order of the operands -/

theorem sumNumbers_comm (a b : Value) : sumNumbers a b = sumNumbers b a := by
  unfold sumNumbers
  cases ha : isInf a <;> cases hb : isInf b
  case true.true =>
    have heq := infinite_eq_iff ((isInf_iff a).1 ha) ((isInf_iff b).1 hb)
    by_cases hs : fpSign a = fpSign b
    · rw [heq.2 hs]
    · simp [hs, Ne.symm hs]
  case false.false => simp [add_comm, Bool.and_comm]
  all_goals simp

theorem mulNumbers_comm (a b : Value) : mulNumbers a b = mulNumbers b a := by
  unfold mulNumbers
  rw [Bool.xor_comm, Bool.or_comm, Bool.or_comm (isZero a), Nat.mul_comm]

/-- Where the numbers commute, so do the operations, up to the NaN. -/
theorem fpOp_comm {op : AluOp} {a b : Value} (hcomm : opNumbers op a b = opNumbers op b a)
    (h : ¬NotANumber (fpOp op a b)) : fpOp op a b = fpOp op b a := by
  obtain ⟨ha, hb, hsome⟩ := opNumbers_of_result h
  exact (fpOp_of_some hb ha (hcomm ▸ hsome)).symm

/-- Settles O49: neither the sum nor the product of two numbers reads the order of its operands. -/
theorem addAndMulCommute : Obligations.AddAndMulCommute := fun a b =>
  ⟨fpOp_comm (op := .add) (sumNumbers_comm a b), fpOp_comm (op := .mul) (mulNumbers_comm a b)⟩

/-! ### Infinities that give no NaN -/

section Infinite

variable {a b : Value} (ha : InfiniteValue a)

include ha

theorem sumNumbers_infinite_left (h : InfiniteValue b → b = a) : sumNumbers a b = some a := by
  have hsame : (isInf b && fpSign a != fpSign b) = false := by
    cases hb : isInf b
    · rfl
    · simp [h ((isInf_iff b).1 hb)]
  rw [sumNumbers, if_pos ((isInf_iff a).2 ha), hsame]
  rfl

theorem sumNumbers_infinite_right (h : InfiniteValue b → b = a) : sumNumbers b a = some a := by
  rw [sumNumbers_comm, sumNumbers_infinite_left ha h]

theorem mulNumbers_infinite_left (hz : ¬SignedZero b) :
    mulNumbers a b = some (infinityOf (fpSign a ^^ fpSign b)) := by
  simp [mulNumbers, (isInf_iff a).2 ha, isZero_of_infinite ha, isZero_false hz, fpPack_infMag]

theorem mulNumbers_infinite_right (hz : ¬SignedZero b) :
    mulNumbers b a = some (infinityOf (fpSign a ^^ fpSign b)) := by
  rw [mulNumbers_comm, mulNumbers_infinite_left ha hz]

theorem divNumbers_infinite_left (hb : FiniteValue b) :
    divNumbers a b = some (infinityOf (fpSign a ^^ fpSign b)) := by
  simp [divNumbers, (isInf_iff a).2 ha, isInf_of_finite hb, fpPack_infMag]

theorem divNumbers_infinite_right (hb : FiniteValue b) :
    divNumbers b a = some (zeroOf (fpSign a ^^ fpSign b)) := by
  simp [divNumbers, (isInf_iff a).2 ha, isInf_of_finite hb, fpPack_zero, Bool.xor_comm]

end Infinite

/-- What is finite or a given infinity is no NaN, and no other infinity. -/
theorem finite_or_eq_infinite {b c : Value} (hc : InfiniteValue c) (h : FiniteValue b ∨ b = c) :
    isNaN b = false ∧ (InfiniteValue b → b = c) := by
  rcases h with hb | rfl
  · exact ⟨isNaN_of_finite hb, fun hi => absurd ((isInf_iff b).2 hi) (by simp [isInf_of_finite hb])⟩
  · exact ⟨isNaN_of_infinite hc, fun _ => rfl⟩

/-- What is infinite, or finite and no zero, is no NaN and no zero. -/
theorem nonzero_or_infinite {b : Value} (h : (FiniteValue b ∧ ¬SignedZero b) ∨ InfiniteValue b) :
    isNaN b = false ∧ ¬SignedZero b := by
  rcases h with ⟨hb, hz⟩ | hb
  · exact ⟨isNaN_of_finite hb, hz⟩
  · exact ⟨isNaN_of_infinite hb, by rw [← isZero_iff_signedZero, isZero_of_infinite hb]; simp⟩

/-- Settles O45: beside an infinity the other operand gives at most its sign. -/
theorem infinitiesFollowTheSignRules : Obligations.InfinitiesFollowTheSignRules := by
  intro a b ha
  have hna := isNaN_of_infinite ha
  have hneg : InfiniteValue (fneg64 a) := (infiniteValue_fneg64 a).2 ha
  refine ⟨fun hb => ?_, fun hb => ?_, fun hb => ?_, fun ⟨hb, _⟩ => ?_, fun hb => ?_⟩
  · obtain ⟨hnb, hsame⟩ := finite_or_eq_infinite ha hb
    exact ⟨fpOp_of_some (op := .add) hna hnb (sumNumbers_infinite_left ha hsame),
      fpOp_of_some (op := .add) hnb hna (sumNumbers_infinite_right ha hsame)⟩
  · obtain ⟨hnb, hsame⟩ := finite_or_eq_infinite hneg hb
    have hsame' : InfiniteValue (fneg64 b) → fneg64 b = a := fun hi =>
      fneg64_eq_iff.2 (hsame ((infiniteValue_fneg64 b).1 hi))
    exact ⟨fpOp_of_some (op := .sub) hna hnb (sumNumbers_infinite_left ha hsame'),
      fpOp_of_some (op := .sub) hnb hna (sumNumbers_infinite_right hneg hsame)⟩
  · obtain ⟨hnb, hz⟩ := nonzero_or_infinite hb
    exact ⟨fpOp_of_some (op := .mul) hna hnb (mulNumbers_infinite_left ha hz),
      fpOp_of_some (op := .mul) hnb hna (mulNumbers_infinite_right ha hz)⟩
  · exact fpOp_of_some (op := .div) hna (isNaN_of_finite hb) (divNumbers_infinite_left ha hb)
  · exact fpOp_of_some (op := .div) (isNaN_of_finite hb) hna (divNumbers_infinite_right ha hb)

end Sys2Proof.Machine
end

section
/-! PROOFS. The arithmetic instructions on the stack: the operands give way to the result, or the instruction faults. O33, O34,
O35. -/

namespace Sys2Proof.Machine

open Sys2Proof

section Arith

variable {i : Instr} {s : State}

/-- With fewer values than it pops, an instruction faults with StackUnderflow (60_exceptions.md R216). -/
theorem exec_underflow (h : s.depth < (stackEffect i.opcode).pops) :
    exec i s = .next (s.afterFault 3#3 (s.tagOf i.opcode)) := by
  rw [exec_eq, State.checked_underflow h, State.raiseFault_eq_afterFault, Cause.code]

/-- A stack of 10_state.md R27 has room for an instruction that pushes no more than it pops. -/
theorem Completes.of_shrinking (hsp : s.spInRange) (hpop : (stackEffect i.opcode).pops ≤ s.depth)
    (hshrink : (stackEffect i.opcode).pushes ≤ (stackEffect i.opcode).pops) (hz : i = .div → isZero s.top = false) :
    Completes i s where
  operands := hpop
  room := by
    have := (State.spInRange_iff s).1 hsp
    omega
  divisor := hz

/-! ### Two operands -/

theorem State.binary_slot (f : Value → Value → Value) (h : 1 ≤ s.sp.toInt) (j : Fin 256) :
    (s.binary f).slot j =
      if (j.val : Int) = s.sp.toInt - 1 then f (s.stackAt (s.sp.toInt - 1)) (s.stackAt s.sp.toInt) else s.slot j := by
  have hsp : (s.sp - 1#9).toInt = s.sp.toInt - 1 := sp_sub_toInt (by omega)
  rw [State.binary, State.slot_push, State.drop_sp, sp_sub_add, State.drop_sp, State.top_drop_eq h, State.top_eq (by omega)]
  simp only [slotOf_eq_iff (sp := s.sp - 1#9) (by omega), hsp, State.slot_drop]

/-- An instruction that pops two values and pushes `f` of them does so on a stack of two or more (42_arithmetic.md R146). -/
theorem exec_binary (f : Value → Value → Value) (hi : stackEffect i.opcode = ⟨2, 1⟩)
    (hz : i = .div → isZero s.top = false) (he : execute i s = (s.binary f).advance i.opcode)
    (h₁ : 1 ≤ s.sp.toInt) (h₂ : s.sp.toInt ≤ 255) :
    ∃ t, exec i s = .next t ∧ WritesTop (-1) (f (s.stackAt (s.sp.toInt - 1)) (s.stackAt s.sp.toInt)) s t := by
  have hrange : s.spInRange := ⟨by omega, h₂⟩
  have hdepth := State.depth_eq hrange
  have hlen : i.opcode.length = 1 := by
    rw [Opcode.length_eq, if_neg]
    intro hc
    rw [hc] at hi
    exact nomatch hi
  refine ⟨_, exec_of_completes (.of_shrinking hrange (by simp only [hi]; omega) (by simp [hi]) hz), ?_⟩
  rw [he]
  refine ⟨rfl, congrArg (s.pc + ·) hlen, ?_, State.binary_slot f h₁⟩
  rw [State.advance_sp, State.binary, State.push_sp, State.drop_sp, sp_sub_add, State.drop_sp, sp_sub_toInt (by omega)]
  rfl

/-- DIV by a value that is no zero (42_arithmetic.md R150). -/
theorem exec_div (hz : ¬SignedZero (s.stackAt s.sp.toInt)) (h₁ : 1 ≤ s.sp.toInt) (h₂ : s.sp.toInt ≤ 255) :
    ∃ t, exec .div s = .next t ∧
      WritesTop (-1) (fdiv64 (s.stackAt (s.sp.toInt - 1)) (s.stackAt s.sp.toInt)) s t := by
  have hdivisor : isZero s.top = false := by
    rw [State.top_eq (by omega)]
    exact isZero_false hz
  exact exec_binary fdiv64 rfl (fun _ => hdivisor) (by simp [execute, hdivisor, Instr.opcode]) h₁ h₂

/-- DIV by a zero faults with DivisionByZero after the depth checks (60_exceptions.md R215). -/
theorem exec_div_zero (hz : SignedZero (s.stackAt s.sp.toInt)) (h₁ : 1 ≤ s.sp.toInt) (h₂ : s.sp.toInt ≤ 255) :
    exec .div s = .next (s.afterFault 2#3 s.opcodeMap.div) := by
  have hdepth := State.depth_eq (s := s) ⟨by omega, h₂⟩
  have hdivisor : isZero s.top = true := by
    rw [State.top_eq (by omega)]
    exact (isZero_iff_signedZero _).2 hz
  rw [exec_eq, State.checked_pass (by simp only [stackEffect, Instr.opcode]; omega)
    (by simp only [stackEffect, Instr.opcode]; omega), execute, if_pos hdivisor]
  rfl

/-! ### One operand -/

/-- NEG flips the sign bit of the top (42_arithmetic.md R151). -/
theorem exec_neg (h₁ : 0 ≤ s.sp.toInt) (h₂ : s.sp.toInt ≤ 255) :
    ∃ t, exec .neg s = .next t ∧ WritesTop 0 (fneg64 (s.stackAt s.sp.toInt)) s t := by
  have hrange : s.spInRange := ⟨by omega, h₂⟩
  have hdepth := State.depth_eq hrange
  refine ⟨_, exec_of_completes (.of_shrinking hrange (by simp only [stackEffect, Instr.opcode]; omega) le_rfl nofun), rfl, rfl,
    ?_, fun j => ?_⟩
  · show (s.sp - 1#9 + 1#9).toInt = _
    rw [sp_sub_add, add_zero]
  · rw [execute, State.slot_advance, State.unary, State.slot_push, State.drop_sp, sp_sub_add, State.top_eq h₁, add_zero]
    simp only [slotOf_eq_iff h₁, State.slot_drop]

theorem getLsbD_fneg64 (a : Value) (k : Nat) :
    (fneg64 a).getLsbD k = if k = 63 then !a.getLsbD 63 else a.getLsbD k := by
  have hmask : (0x8000000000000000#64).getLsbD k = decide (63 = k) := by
    rw [show 0x8000000000000000#64 = BitVec.twoPow 64 63 by decide, BitVec.getLsbD_twoPow]
    simp
  rw [fneg64, BitVec.getLsbD_xor, hmask]
  by_cases h : k = 63
  · simp [h]
  · simp [h, Ne.symm h]

end Arith

/-! ### The obligations -/

/-- Settles O33: each of the four pops two values and pushes its own function of them. -/
theorem binaryOperationsReplaceTheirOperands : Obligations.BinaryOperationsReplaceTheirOperands := fun _ h₁ h₂ =>
  ⟨exec_binary (i := .add) fadd64 rfl nofun rfl h₁ h₂, exec_binary (i := .sub) fsub64 rfl nofun rfl h₁ h₂,
    exec_binary (i := .mul) fmul64 rfl nofun rfl h₁ h₂, fun hz => exec_div hz h₁ h₂⟩

/-- Settles O34: the depth check first, then the divisor. -/
theorem divFaultsOrReplacesItsOperands : Obligations.DivFaultsOrReplacesItsOperands := by
  refine ⟨rfl, fun s hsp => ⟨fun hlt => ?_, fun h₁ hz => exec_div_zero hz h₁ hsp.2, fun h₁ hp hm => ?_⟩⟩
  · have hdepth := State.depth_eq hsp
    exact exec_underflow (i := .div) (by simp only [stackEffect, Instr.opcode]; omega)
  · exact exec_div (not_or.2 ⟨hp, hm⟩) h₁ hsp.2

/-- Settles O35: NEG underflows on no value, and otherwise its result differs from the top in bit 63 alone. -/
theorem negFlipsTheSignBit : Obligations.NegFlipsTheSignBit := by
  refine ⟨rfl, fun s hsp => ⟨fun hempty => ?_, fun h₁ => ?_⟩⟩
  · have hdepth := State.depth_eq hsp
    exact exec_underflow (i := .neg) (by simp only [stackEffect, Instr.opcode]; omega)
  · obtain ⟨t, ht, hw⟩ := exec_neg h₁ hsp.2
    exact ⟨t, _, ht, hw, fun k _ => getLsbD_fneg64 _ k⟩

end Sys2Proof.Machine
end

section
/-! PROOFS. Postfix evaluation (95_test_vectors.md W1), by induction on the expression, each operation by the list machine
(O59). O60. -/

namespace Sys2Proof.Machine

open Sys2Proof

/-- `t` is `s` with `v` pushed, and at some other PC. -/
def LeavesOnTop (v : Value) (s t : State) : Prop :=
  t.spInRange ∧ t.toList = { s.toList with pc := t.pc, stack := v :: s.stackList }

/-- Executing the instructions at `s` leaves `v` on top of the stack as it was. -/
def Evaluates (is : List Instr) (v : Value) (s : State) : Prop :=
  ∃ t, execAll is s = .next t ∧ LeavesOnTop v s t

theorem LeavesOnTop.stackList_eq {v : Value} {s t : State} (h : LeavesOnTop v s t) : t.stackList = v :: s.stackList :=
  congrArg ListMachine.stack h.2

theorem LeavesOnTop.depth_eq {v : Value} {s t : State} (h : LeavesOnTop v s t) : t.depth = s.depth + 1 := by
  rw [← State.length_stackList, h.stackList_eq, List.length_cons, State.length_stackList]

theorem execAll_append {is js : List Instr} {s t : State} (h : execAll is s = .next t) :
    execAll (is ++ js) s = execAll js t := by
  induction is generalizing s with
  | nil =>
    obtain rfl := Host.Outcome.next.inj h
    rfl
  | cons i is ih =>
    obtain ⟨u, hu⟩ := exec_next i s
    simp only [List.cons_append, execAll, hu] at h ⊢
    exact ih h

theorem execAll_singleton {i : Instr} {s t : State} (h : exec i s = .next t) : execAll [i] s = .next t := by
  simp only [execAll, h]

/-- An instruction that puts `v` on the stack of `s` on the list machine does so on the machine (O59). -/
theorem exec_leavesOnTop {i : Instr} {s u : State} {v : Value} (hu : u.spInRange)
    (h : ∃ pc, u.toList.exec (u.opcodeMap.tag i.opcode) i = { s.toList with pc := pc, stack := v :: s.stackList }) :
    ∃ t, exec i u = .next t ∧ LeavesOnTop v s t := by
  obtain ⟨t, ht, hsp, hlist⟩ := execRefinesTheListMachine i u hu
  obtain ⟨pc, hpc⟩ := h
  rw [hpc] at hlist
  refine ⟨t, ht, hsp, ?_⟩
  have hpc : t.pc = pc := congrArg ListMachine.pc hlist
  rw [hpc, hlist]

theorem evaluates_pushConst (v : Value) {s : State} (h : s.depth ≤ 255) : Evaluates [.pushConst v] v s := by
  have hroom : ¬256 ≤ s.toList.stack.length := by
    rw [State.toList, State.length_stackList]
    omega
  obtain ⟨t, ht, hv⟩ := exec_leavesOnTop (i := .pushConst v) (s := s) (v := v) ((State.spInRange_iff s).2 (by omega))
    ⟨_, if_neg hroom⟩
  exact ⟨t, execAll_singleton ht, hv⟩

theorem evaluates_neg {is : List Instr} {a : Value} {s : State} (h : Evaluates is a s) :
    Evaluates (is ++ [.neg]) (fneg64 a) s := by
  obtain ⟨t, ht, ha⟩ := h
  obtain ⟨u, hu, hv⟩ := exec_leavesOnTop (i := .neg) (s := s) (v := fneg64 a) ha.1 ⟨t.pc + 1, by rw [ha.2]; rfl⟩
  exact ⟨u, by rw [execAll_append ht, execAll_singleton hu], hv⟩

/-- Two operands evaluated one after the other, and an instruction that is a binary operation on what they leave. -/
theorem evaluates_binary {is js : List Instr} {i : Instr} {f : Value → Value → Value} {a b : Value} {s : State}
    (h₁ : Evaluates is a s) (h₂ : ∀ t : State, t.depth = s.depth + 1 → Evaluates js b t)
    (hi : ∀ (m : ListMachine) (tag : Byte) (rest : List Value), m.stack = b :: a :: rest → m.exec tag i = m.binary tag f) :
    Evaluates (is ++ js ++ [i]) (f a b) s := by
  obtain ⟨t, ht, ha⟩ := h₁
  obtain ⟨u, hu, hb⟩ := h₂ t ha.depth_eq
  have hstack : u.toList.stack = b :: a :: s.stackList := by
    rw [← ha.stackList_eq]
    exact hb.stackList_eq
  obtain ⟨w, hw, hv⟩ := exec_leavesOnTop (i := i) (s := s) (v := f a b) hb.1
    ⟨u.pc + 1, by rw [hi _ _ _ hstack, ListMachine.binary, hstack, hb.2, ha.2]⟩
  exact ⟨w, by rw [execAll_append (by rw [execAll_append ht, hu]), execAll_singleton hw], hv⟩

/-- On a stack with room, an expression's instructions leave its value on top. -/
theorem evaluates_postfixOrder (e : Expr) {s : State} (hroom : s.depth + e.height ≤ 256) (hz : e.noZeroDivisor = true) :
    Evaluates e.postfixOrder e.eval s := by
  induction e generalizing s with
  | const v => exact evaluates_pushConst v (by rw [Expr.height] at hroom; omega)
  | neg e ih => exact evaluates_neg (ih hroom hz)
  | add e₁ e₂ ih₁ ih₂ | sub e₁ e₂ ih₁ ih₂ | mul e₁ e₂ ih₁ ih₂ =>
    obtain ⟨hz₁, hz₂⟩ := Bool.and_eq_true_iff.1 hz
    rw [Expr.height] at hroom
    exact evaluates_binary (ih₁ (by omega) hz₁) (fun t ht => ih₂ (by omega) hz₂) fun _ _ _ _ => rfl
  | div e₁ e₂ ih₁ ih₂ =>
    obtain ⟨hz₁₂, hz₃⟩ := Bool.and_eq_true_iff.1 hz
    obtain ⟨hz₁, hz₂⟩ := Bool.and_eq_true_iff.1 hz₁₂
    rw [Bool.not_eq_true'] at hz₃
    rw [Expr.height] at hroom
    refine evaluates_binary (ih₁ (by omega) hz₁) (fun t ht => ih₂ (by omega) hz₂) fun m tag rest hm => ?_
    simp only [ListMachine.exec, hm, hz₃]
    rfl

/-- Settles O60, by `evaluates_postfixOrder`: depth and SP say the same of the room. -/
theorem postfixOrderEvaluatesTheExpression : Obligations.PostfixOrderEvaluatesTheExpression := by
  intro e s hsp hroom hz
  have hdepth := State.depth_eq hsp
  obtain ⟨t, ht, hv⟩ := evaluates_postfixOrder e (s := s) (by omega) hz
  have hdepth' := State.depth_eq hv.1
  have hone := hv.depth_eq
  have hlist := hv.2
  exact ⟨t, ht, hv.stackList_eq, hv.1, by omega, congrArg ListMachine.r1 hlist, congrArg ListMachine.r2 hlist,
    congrArg ListMachine.out hlist, congrArg ListMachine.status hlist, congrArg ListMachine.faultPc hlist⟩

end Sys2Proof.Machine
end

section
/-! PROOFS. The register transfers: a load is a push of the register, a store a pop into it, and the two are inverse. O36, O37,
O40. -/

namespace Sys2Proof.Machine

open Sys2Proof

section Transfer

variable {k : Reg} {s : State}

/-! ### Pushing back what was popped -/

@[simp] theorem State.setSlot_slot (s : State) (i : Fin 256) : s.setSlot i (s.slot i) = s := by
  simp [State.setSlot, State.slot]

/-- A pop leaves the slot as it was, so pushing the value it returned restores the state. -/
theorem State.push_top_drop (s : State) : s.drop.push s.top = s := by
  rw [State.push, State.drop_sp, sp_sub_add]
  exact State.setSlot_slot s (slotOf s.sp)

theorem State.push_writeReg (s : State) (v w : Value) (k : Reg) : (s.writeReg v k).push w = (s.push w).writeReg v k := by
  cases k <;> rfl

/-- Pushing a register that was just popped into leaves the write of the register alone (43_register_transfer.md R184). -/
theorem State.push_readReg_popReg (s : State) (k : Reg) :
    (s.popReg k).push ((s.popReg k).readReg k) = s.writeReg s.top k := by
  rw [State.popReg, State.readReg_writeReg, if_pos rfl, State.push_writeReg, State.push_top_drop]

/-! ### What a store and a load of one register do -/

theorem execute_load (k : Reg) (s : State) : execute k.load s = (s.push (s.readReg k)).advance k.load.opcode := by
  cases k <;> rfl

theorem execute_store (k : Reg) (s : State) : execute k.store s = (s.popReg k).advance k.store.opcode := by
  cases k <;> rfl

@[simp] theorem stackEffect_load (k : Reg) : stackEffect k.load.opcode = ⟨0, 1⟩ := by cases k <;> rfl

@[simp] theorem stackEffect_store (k : Reg) : stackEffect k.store.opcode = ⟨1, 0⟩ := by cases k <;> rfl

/-- A store completes on every stack with a value (43_register_transfer.md R182, R183). -/
theorem Completes.of_store (h₁ : 0 ≤ s.sp.toInt) (h₂ : s.sp.toInt ≤ 255) : Completes k.store s := by
  have hrange : s.spInRange := ⟨by omega, h₂⟩
  have hdepth := State.depth_eq hrange
  exact .of_shrinking hrange (by simp only [stackEffect_store]; omega) (by simp) (by cases k <;> exact nofun)

/-- A store moves the top into its register, and PC and SP (43_register_transfer.md R182, R183). -/
theorem exec_store (h₁ : 0 ≤ s.sp.toInt) (h₂ : s.sp.toInt ≤ 255) :
    exec k.store s =
      .next (({ s with pc := s.pc + 1, sp := s.sp - 1#9 } : State).writeReg (s.stackAt s.sp.toInt) k) := by
  rw [exec_of_completes (.of_store h₁ h₂), execute_store, State.popReg, State.top_eq h₁]
  cases k <;> rfl

/-- On an empty stack a store faults with StackUnderflow (60_exceptions.md R216). -/
theorem exec_store_empty (k : Reg) (h : s.sp.toInt = -1) :
    exec k.store s = .next (s.afterFault 3#3 (s.tagOf k.store.opcode)) := by
  have hdepth := State.depth_eq (s := s) ⟨by omega, by omega⟩
  exact exec_underflow (by simp only [stackEffect_store]; omega)

end Transfer

/-! ### The obligations -/

/-- Settles O36: each load is a push of its register, which on a full stack overflows. -/
theorem loadsPushTheRegister : Obligations.LoadsPushTheRegister := by
  refine ⟨⟨rfl, rfl⟩, fun s ⟨hge, _⟩ => ⟨fun hle => ?_, fun hfull => ?_⟩⟩
  · exact ⟨exec_pushes (i := .loadR1) rfl rfl hge hle, exec_pushes (i := .loadR2) rfl rfl hge hle⟩
  · exact ⟨exec_push_full (i := .loadR1) rfl hfull, exec_push_full (i := .loadR2) rfl hfull⟩

/-- Settles O37: each store pops into its register, and on an empty stack underflows. -/
theorem storesPopIntoTheRegister : Obligations.StoresPopIntoTheRegister := by
  refine ⟨⟨rfl, rfl⟩, fun s hsp => ⟨fun hempty => ⟨exec_store_empty .r1 hempty, exec_store_empty .r2 hempty⟩, fun h₁ => ?_⟩⟩
  have hsub := sp_sub_toInt h₁
  exact ⟨⟨_, exec_store (k := .r1) h₁ hsp.2, hsub, rfl⟩, ⟨_, exec_store (k := .r2) h₁ hsp.2, hsub, rfl⟩⟩

/-- Settles O40: the load pushes back the value the store popped. -/
theorem storeThenLoadRoundTrips : Obligations.StoreThenLoadRoundTrips := by
  intro s k h₁ h₂
  have hsp : (execute k.store s).sp.toInt = s.sp.toInt - 1 := by
    rw [execute_store, State.advance_sp, State.popReg_sp, sp_sub_toInt h₁]
  have hload : Completes k.load (execute k.store s) := .of_push (stackEffect_load k) (by omega) (by omega)
  refine ⟨_, _, exec_of_completes (.of_store h₁ h₂), exec_of_completes hload, ?_⟩
  have hback := State.push_readReg_popReg s k
  rw [State.top_eq h₁] at hback
  calc execute k.load (execute k.store s)
      = (((s.popReg k).push ((s.popReg k).readReg k)).advance k.store.opcode).advance k.load.opcode := by
        rw [execute_load, execute_store]
        cases k <;> rfl
    _ = ((s.writeReg (s.stackAt s.sp.toInt) k).advance k.store.opcode).advance k.load.opcode := by rw [hback]
    _ = ({ s with pc := s.pc + 2 } : State).writeReg (s.stackAt s.sp.toInt) k := by cases k <;> rfl

end Sys2Proof.Machine
end

section
/-! PROOFS. The output port: PRINT pops the top and appends it to OUT, or faults on an empty stack. O38. -/

namespace Sys2Proof.Machine

open Sys2Proof

section Print

variable {s : State}

/-- PRINT appends the top to OUT as it stands, and moves PC and SP (44_output.md R201). -/
theorem exec_print (h₁ : 0 ≤ s.sp.toInt) (h₂ : s.sp.toInt ≤ 255) :
    exec .print s =
      .next { s with pc := s.pc + 1, sp := s.sp - 1#9, out := s.out ++ [s.stackAt s.sp.toInt] } := by
  have hdepth := State.depth_eq (s := s) ⟨by omega, h₂⟩
  rw [exec_of_completes (.of_print (by omega) (by omega)), execute, State.popEmit, State.top_eq h₁]
  rfl

/-- On an empty stack PRINT faults with StackUnderflow (60_exceptions.md R216). -/
theorem exec_print_empty (h : s.sp.toInt = -1) : exec .print s = .next (s.afterFault 3#3 s.opcodeMap.print) := by
  have hdepth := State.depth_eq (s := s) ⟨by omega, by omega⟩
  exact exec_underflow (i := .print) (by simp only [stackEffect, Instr.opcode]; omega)

end Print

/-! ### The obligation -/

/-- Settles O38: PRINT's whole next state on a stack with a value, and its underflow on an empty one. -/
theorem printEmitsTheTop : Obligations.PrintEmitsTheTop :=
  ⟨rfl, fun _ hsp => ⟨exec_print_empty, fun h₁ => ⟨_, exec_print h₁ hsp.2, sp_sub_toInt h₁, rfl⟩⟩⟩

end Sys2Proof.Machine
end

section
/-! PROOFS. Termination: the fields of STATUS, each fault of 60_exceptions.md R211 at its raising condition, their priority, what
a fault leaves alone, and the exit status. O18 to O27. -/

namespace Sys2Proof.Machine

open Sys2Proof

/-! ### What a step raises before it executes (60_exceptions.md R214, R218, R219) -/

section Fetch

variable {s : State} {tag : Byte} {o : Opcode}

/-- Where no byte is left, a step faults with FetchPastEnd. -/
theorem step_pastEnd (hd : s.done = false) (hl : launchWf s.opcodeMap s.pcw s.len = true) (hp : s.len ≤ s.pc) :
    step s = .next (s.raiseFault .fetchPastEnd 0x00#8) := by
  rw [step_running hd hl, State.fetch, State.window_past hp, decodeBytes_nil]

/-- At a byte that is no instruction's, a step faults with UnknownOpcode. -/
theorem step_unknownOpcode (hd : s.done = false) (hl : launchWf s.opcodeMap s.pcw s.len = true)
    (hb : s.imemByte s.pc = some tag) (hno : ∀ o, s.opcodeMap.tag o ≠ tag) :
    step s = .next (s.raiseFault .unknownOpcode tag) := by
  obtain ⟨hp, hread⟩ := State.imemByte_eq_some.1 hb
  rw [step_running hd hl, State.fetch, State.window_cons hp, hread, decodeBytes_none _ (OpcodeMap.decode_eq_none.2 hno)]

/-- At an instruction's byte, a step faults with TruncatedImmediate or executes the instruction. -/
theorem step_at_tag (hd : s.done = false) (hl : launchWf s.opcodeMap s.pcw s.len = true)
    (hb : s.imemByte s.pc = some (s.opcodeMap.tag o)) :
    (s.len < s.pc + o.length ∧ step s = .next (s.raiseFault .truncatedImmediate (s.opcodeMap.tag o))) ∨
    (s.pc + o.length ≤ s.len ∧ ∃ i : Instr, i.opcode = o ∧ step s = exec i s) := by
  rw [step_running hd hl]
  rcases State.fetch_of_decode hb (OpcodeMap.decode_tag (launchWf_iff.1 hl).1 o) with ⟨hlen, hf⟩ | ⟨hlen, hf⟩ <;> rw [hf]
  · exact .inl ⟨hlen, rfl⟩
  · exact .inr ⟨hlen, _, Opcode.opcode_toInstr o _, rfl⟩

/-- An instruction whose tag is in the stream is cut short only if it is PUSH_CONST (60_exceptions.md R218). -/
theorem State.cut_short_iff (hb : s.imemByte s.pc = some tag) :
    s.len < s.pc + o.length ↔ o = .pushConst ∧ s.len < s.pc + 9 := by
  have hp := (State.imemByte_eq_some.1 hb).1
  rw [Opcode.length_eq]
  split
  · next ho => simp only [ho, true_and]
  · next ho => simp only [ho, false_and, iff_false]; omega

end Fetch

/-! ### The cause an execution reports (60_exceptions.md R215 to R217) -/

section Cause

variable {i : Instr} {s t : State}

/-- An execution that completes writes CAUSE only as HALT does, with HALT_OK. -/
theorem execute_cause (hz : i = .div → isZero s.top = false) :
    (execute i s).cause = if i = .halt then 0#3 else s.cause := by
  obtain ⟨hst, -, -⟩ := execute_control hz
  rw [State.cause, hst]
  split
  · decide
  · rfl

theorem eq_checked_of_exec (h : exec i s = .next t) : t = s.checked i.opcode (execute i) := by
  rw [exec_eq] at h
  exact (Host.Outcome.next.inj h).symm

theorem cause_of_underflow (h : exec i s = .next t) (hlt : s.depth < (stackEffect i.opcode).pops) : t.cause = 3#3 := by
  rw [eq_checked_of_exec h, State.checked_underflow hlt, State.raiseFault_cause, Cause.code]

theorem cause_of_overflow (h : exec i s = .next t) (hpop : (stackEffect i.opcode).pops ≤ s.depth)
    (hfull : 256 < s.depth - (stackEffect i.opcode).pops + (stackEffect i.opcode).pushes) : t.cause = 4#3 := by
  rw [eq_checked_of_exec h, State.checked_overflow hpop hfull, State.raiseFault_cause, Cause.code]

theorem cause_of_completes (h : exec i s = .next t) (hi : Completes i s) (hc : s.cause = 0#3) : t.cause = 0#3 := by
  rw [eq_checked_of_exec h, State.checked_pass hi.operands hi.room, execute_cause hi.divisor, hc, ite_self]

theorem cause_of_zero_divisor (h : exec .div s = .next t) (hz : SignedZero (s.stackAt s.sp.toInt)) (h₁ : 1 ≤ s.sp.toInt)
    (h₂ : s.sp.toInt ≤ 255) : t.cause = 2#3 := by
  have ht : s.raiseFault .divisionByZero s.opcodeMap.div = t :=
    Host.Outcome.next.inj ((exec_div_zero hz h₁ h₂).symm.trans h)
  rw [← ht, State.raiseFault_cause, Cause.code]

theorem Instr.opcode_eq_div : i.opcode = .div ↔ i = .div := by
  constructor
  · intro h
    cases i with
    | div => rfl
    | _ => exact nomatch h
  · rintro rfl
    rfl

/-- An instruction that pushes more than it pops is one of those that push without popping (40_control.md R112). -/
theorem stackEffect_of_pops_lt_pushes {o : Opcode} (h : (stackEffect o).pops < (stackEffect o).pushes) :
    (stackEffect o).pops = 0 ∧ (stackEffect o).pushes = 1 := by
  cases o <;> simp [stackEffect] at h ⊢

end Cause

/-! ### The exit status (60_exceptions.md R223) -/

theorem State.exitStatus_running {s : State} (h : s.done = false) : s.exitStatus = none := by simp [State.exitStatus, h]

theorem State.exitStatus_done {s : State} (h : s.done = true) : s.exitStatus = some s.cause.toNat := by
  simp [State.exitStatus, h]

theorem State.exitStatus_eq_zero_iff {s : State} : s.exitStatus = some 0 ↔ s.done = true ∧ ¬s.faulted := by
  cases hd : s.done with
  | false => simp [State.exitStatus_running hd]
  | true => simp [State.exitStatus_done hd, State.faulted, hd, BitVec.toNat_eq]

/-! ### The obligations -/

/-- Settles O26, by the fields of `terminatedStatus`. -/
theorem statusFieldsAfterTermination : Obligations.StatusFieldsAfterTermination :=
  ⟨fun s c tag => ⟨rfl, s.raiseFault_done c tag, s.raiseFault_cause c tag, s.raiseFault_statusReserved c tag,
      s.raiseFault_faultTag c tag⟩,
    fun _ => ⟨rfl, terminatedStatus_done .haltOk 0x00#8, terminatedStatus_cause .haltOk 0x00#8,
      terminatedStatus_reserved .haltOk 0x00#8, terminatedStatus_tag .haltOk 0x00#8⟩,
    rfl, rfl, rfl, rfl, rfl, rfl, rfl⟩

/-- Settles O18: the fault writes STATUS as 0x000D, and PC is `L` where it is not past it. -/
theorem fetchPastEndFaults : Obligations.FetchPastEndFaults :=
  fun _ hd hl hp => ⟨_, step_pastEnd hd hl hp, rfl, fun hle => Nat.le_antisymm hle hp⟩

/-- Settles O19: under the default map the bytes of no instruction are those from 0x11 on. -/
theorem unknownOpcodeFaults : Obligations.UnknownOpcodeFaults := by
  intro s tag hd hl hb
  refine ⟨step_unknownOpcode hd hl hb, fun hm htag => step_unknownOpcode hd hl hb ?_⟩
  rw [hm]
  exact OpcodeMap.standard_tag_ne_iff.2 htag

/-- Settles O20: the other way a step at PUSH_CONST's byte can go has all 9 bytes in the stream. -/
theorem truncatedImmediateFaults : Obligations.TruncatedImmediateFaults := by
  intro s hd hl hb hlen
  rcases step_at_pushConst hd hl hb with ⟨-, hstep⟩ | ⟨hwhole, -⟩
  · exact hstep
  · omega

/-- Settles O21: the depth is below the number of values the instruction pops. -/
theorem stackUnderflowFaults : Obligations.StackUnderflowFaults := by
  intro s i hsp h
  have hdepth := State.depth_eq hsp
  refine exec_underflow ?_
  rcases h with ⟨hi, hlt⟩ | ⟨hi, hlt⟩
  · have hpops : (stackEffect i.opcode).pops = 2 := by rcases hi with rfl | rfl | rfl | rfl <;> rfl
    omega
  · have hpops : (stackEffect i.opcode).pops = 1 := by rcases hi with rfl | rfl | rfl | rfl <;> rfl
    omega

/-- Settles O22: an overflow needs an instruction that grows a stack already full, and no other end of an execution writes its
cause. -/
theorem stackOverflowFaults : Obligations.StackOverflowFaults := by
  refine ⟨fun s i v hfull hi => ?_, fun s t i hsp hc h ht => ?_⟩
  · have hpush : stackEffect i.opcode = ⟨0, 1⟩ := by rcases hi with rfl | rfl | rfl | rfl | rfl | rfl | rfl <;> rfl
    exact exec_push_full hpush hfull
  · rcases exec_cases h with ⟨-, rfl⟩ | ⟨hpop, hover, -⟩ | ⟨-, -, -, -, rfl⟩ | ⟨-, -, hz, rfl⟩
    · exact absurd ht (by simp [Cause.code])
    · have hle := (State.spInRange_iff s).1 hsp
      have hdepth := State.depth_eq hsp
      obtain ⟨h₀, h₁⟩ := stackEffect_of_pops_lt_pushes (o := i.opcode) (by omega)
      exact ⟨by omega, h₀, h₁⟩
    · exact absurd ht (by simp [Cause.code])
    · rw [execute_cause hz] at ht
      split at ht
      · exact absurd ht (by decide)
      · exact absurd ht hc

/-- Settles O23, by `exec_div_zero`. -/
theorem divisionByZeroFaults : Obligations.DivisionByZeroFaults :=
  fun _ h₁ h₂ hz => exec_div_zero hz h₁ h₂

/-- Settles O24: the fetch's three causes, then the execution's three, each where the ones before it do not apply. -/
theorem faultPriority : Obligations.FaultPriority := by
  intro s t hinv hd hst
  have hstep : ∀ {c tag}, step s = .next (s.raiseFault c tag) → t.cause = c.code := fun {c tag} h => by
    rw [← Host.Outcome.next.inj (h.symm.trans hst), State.raiseFault_cause]
  refine ⟨fun hp => hstep (step_pastEnd hd hinv.launch hp), fun tag hb =>
    ⟨fun hno => hstep (step_unknownOpcode hd hinv.launch hb hno), ?_⟩⟩
  rintro o rfl
  rw [← State.cut_short_iff hb]
  rcases step_at_tag hd hinv.launch hb with ⟨hcut, hs⟩ | ⟨hwhole, i, rfl, hs⟩
  · exact ⟨fun _ => hstep hs, fun hn => absurd hcut hn⟩
  have he : exec i s = .next t := hs.symm.trans hst
  have hdepth := State.depth_eq hinv.spLegal
  refine ⟨fun hcut => absurd hcut (by omega), fun _ => ⟨cause_of_underflow he, fun hpop =>
    ⟨cause_of_overflow he hpop, fun hroom => ⟨?_, fun hn => ?_⟩⟩⟩⟩
  · rintro ⟨hdiv, hz⟩
    obtain rfl := Instr.opcode_eq_div.1 hdiv
    have hpop₂ : 2 ≤ s.depth := hpop
    exact cause_of_zero_divisor he hz (by omega) hinv.spLegal.2
  · obtain ⟨-, hcause, -, -⟩ := State.fields_of_status_zero (hinv.running hd)
    refine cause_of_completes he ⟨hpop, hroom, ?_⟩ hcause
    rintro rfl
    have hpop₂ : 2 ≤ s.depth := hpop
    rw [State.top_eq (by omega)]
    exact isZero_false fun hz => hn ⟨rfl, hz⟩

/-- Settles O25: a step that faulted took a fault, since a completion is none. -/
theorem faultChangesOnlyStatusAndFaultPc : Obligations.FaultChangesOnlyStatusAndFaultPc := by
  intro s t _ hd h hf
  obtain ⟨-, -, ⟨c, tag, -, rfl⟩ | ⟨i, -, -, hi, rfl⟩⟩ := step_outcome h
  · rfl
  · exact absurd hf (execute_not_faulted hd hi)

/-- Settles O27: the exit status is CAUSE, which the invariant bounds by 6, and CAUSE 0 is no fault. -/
theorem exitStatusIsTheCause : Obligations.ExitStatusIsTheCause := fun _ hinv =>
  ⟨State.exitStatus_running, fun hd => ⟨_, State.exitStatus_done hd, rfl, hinv.causeLegal⟩, State.exitStatus_eq_zero_iff⟩

end Sys2Proof.Machine
end

section
/-! PROOFS. The reset input: the values of 10_state.md R36, and that only the launch inputs of the state before survive. O4. -/

namespace Sys2Proof.Machine

open Sys2Proof

/-- A machine whose SP is EMPTY has no value on its stack (10_state.md R27). -/
theorem State.stackList_of_sp_empty {s : State} (h : s.sp = State.emptySp) : s.stackList = [] := by
  rw [← List.length_eq_zero_iff, State.length_stackList, State.depth, h]
  decide

/-- Reset reads the launch inputs and nothing else of the state it is accepted in (70_reset_and_hazards.md R250). -/
theorem State.hostReset_congr {s t : State} (fill : Stack) (himem : t.imem = s.imem) (hlen : t.len = s.len)
    (hmap : t.opcodeMap = s.opcodeMap) (hpcw : t.pcw = s.pcw) : t.hostReset fill = s.hostReset fill := by
  rw [State.hostReset, himem, hlen, hmap, hpcw, State.hostReset]

/-- Settles O4: the fields as `State.hostReset` writes them, DONE off STATUS, the empty stack off SP. -/
theorem hostResetGivesTheResetValues : Obligations.HostResetGivesTheResetValues := by
  intro s fill
  obtain ⟨hdone, -⟩ := State.fields_of_status_zero (State.hostReset_status s fill)
  have hsp : (s.hostReset fill).sp.toInt = -1 := by
    rw [State.hostReset_sp]
    decide
  have hempty : (s.hostReset fill).stackList = [] := State.stackList_of_sp_empty (State.hostReset_sp s fill)
  exact ⟨rfl, hsp, rfl, rfl, rfl, rfl, hdone, rfl, rfl, hempty, rfl, rfl, rfl, rfl, fun _ => State.hostReset_congr fill⟩

end Sys2Proof.Machine
end
